-- ==== Sys2Proof/Word.lean ====
section
/-! DEFINITION. The block's value types: bytes, 16-bit values, byte sequences, the transport record (00_scope.md R6, R7). -/

namespace Sys2Proof

/-- A byte (R6). -/
abbrev Byte := BitVec 8

/-- A 16-bit value: a command word, a length field, a checksum (R6). -/
abbrev Half := BitVec 16

/-- A finite sequence of bytes, offset 0 first (R7). -/
abbrev Bytes := List Byte

/-- The transport record: exactly 256 bytes by type (20_memory.md R25, 42_frame_parser.md R97). -/
abbrev Record := Vector Byte 256

/-- `zeros k`: `k` bytes `0x00` (R7). -/
abbrev zeros (k : Nat) : Bytes := List.replicate k 0#8

end Sys2Proof
end

