-- ==== Sys2Proof/Config.lean ====
section
/-! DEFINITION. The parameters of 00_scope.md R5. The OPEN ones are constants without a body: nothing can prove a value of them. -/

namespace Sys2Proof.Config

/-- `N`: transport record size and maximum frame size. -/
@[simp] abbrev recordSize : Nat := 256

/-- `HDR`: bytes before the payload. -/
@[simp] abbrev headerSize : Nat := 3

/-- `TRL`: checksum bytes after the payload. -/
@[simp] abbrev trailerSize : Nat := 2

/-- `PAYLOAD_MAX`. -/
@[simp] abbrev payloadMax : Nat := 251

/-- `OPEN_MAX`: the most bytes an open frame holds (D4). -/
@[simp] abbrev openMax : Nat := 254

/-- `CRC_POLY`. -/
@[simp] abbrev crcPoly : Half := 0x1021#16

/-- `CRC_INIT`. -/
@[simp] abbrev crcInit : Half := 0xFFFF#16

/-- `CRC_XOROUT`. -/
@[simp] abbrev crcXorOut : Half := 0xFFFF#16

/-- `ID_LEN`: length of a card identifier. -/
@[simp] abbrev idLen : Nat := 8

/-- `REC_LEN`: length of one inventory card record. -/
@[simp] abbrev recLen : Nat := 9

/-- `INV_COUNT_OFF`. -/
@[simp] abbrev invCountOff : Nat := 4

/-- `INV_REC_OFF`. -/
@[simp] abbrev invRecOff : Nat := 6

/-- `INV_MIN`. -/
@[simp] abbrev invMin : Nat := 5

/-- `RD_MIN`. -/
@[simp] abbrev rdMin : Nat := 3

/-- `RD_STATUS_OFF`. -/
@[simp] abbrev rdStatusOff : Nat := 1

/-- `RD_DATA_OFF`. -/
@[simp] abbrev rdDataOff : Nat := 12

/-- `RD_TAIL`. -/
@[simp] abbrev rdTail : Nat := 2

/-- `WR_STATUS_OFF`. -/
@[simp] abbrev wrStatusOff : Nat := 1

/-- `WR_MIN` (D12). -/
@[simp] abbrev wrMin : Nat := 2

/-- `WR_DATA_MAX` (D23). -/
@[simp] abbrev wrDataMax : Nat := 231

/-- The default of the host's `WAIT_MS`; no rule of the block reads it (60_exceptions.md R135). -/
@[simp] abbrev waitMsDefault : Nat := 200

/-- `START_SETUP`: OPEN, one byte without a stated value (D8). -/
opaque startSetup : Byte

/-- How far `START_DATA` lies from `START_SETUP`, less one: OPEN. It only serves to make the two distinct (log 3). -/
opaque startGap : Fin 255

/-- `START_DATA`: OPEN, any byte but `START_SETUP` (R5, D8). Marked DESIGN CHOICE for its form, log 3; safe. -/
def startData : Byte := startSetup + BitVec.ofNat 8 (startGap.val + 1)

/-- `START_READ` (43_device_protocol.md R105, D11; log 16). -/
def startRead : Byte := startData

/-- `START_WRITE` (43_device_protocol.md R105, D11; log 16). -/
def startWrite : Byte := startData

end Sys2Proof.Config
end

