-- ==== Sys2Proof/Syntax.lean ====
section
/-! DEFINITION. The operations of 30_encoding.md R49 and the device command layouts of R50 to R52, one constructor per row of spec/opcode_table.json, and the form in which a host hands them to the block. -/

namespace Sys2Proof

/-- A frame slot, as PAYLOAD's `sel` names it (30_encoding.md R49: 0 is `TXF`, 1 is `RXF`). -/
inductive Slot where
  | txf
  | rxf
deriving DecidableEq, Repr

/-- An operation with its operands (R49, R58). Sequence operands come from the `ARG` port, `new` and `write` carry `imm8`. -/
inductive Instr where
  /-- CRC16(B), R60. -/
  | crc16 (b : Bytes)
  /-- NEW(s), R70. -/
  | new (start : Byte)
  /-- WRITE(b), R71. -/
  | write (b : Byte)
  /-- WRITE_ALL(B), R72. -/
  | writeAll (b : Bytes)
  /-- FINALIZE(), R73. -/
  | finalize
  /-- PAYLOAD(sel), R74. -/
  | payload (sel : Slot)
  /-- STRIP(B), R85. -/
  | strip (b : Bytes)
  /-- PARSE(REC), R86. -/
  | parse (record : Record)
  /-- ENC_INVENTORY(), R100. -/
  | encInventory
  /-- ENC_READ(ID), R101; any length of `ID` can be issued. -/
  | encRead (id : Bytes)
  /-- ENC_WRITE(ID, DATA), R102; any lengths can be issued. -/
  | encWrite (id : Bytes) (data : Bytes)
  /-- DEC_INVENTORY(R), R110. -/
  | decInventory (r : Bytes)
  /-- DEC_READ(R), R111. -/
  | decRead (r : Bytes)
  /-- DEC_WRITE(R), R112. -/
  | decWrite (r : Bytes)
  /-- DEC_RAW(R), R115. -/
  | decRaw (r : Bytes)
  /-- RESERVED_F: a word with `op = 0xF`; `low` is its bits 11:0 (R53). -/
  | reservedF (low : BitVec 12)
  /-- CMD_INVENTORY: the inventory command layout, R50. -/
  | cmdInventory
  /-- CMD_READ: the read-card command layout for a card identifier, R51. -/
  | cmdRead (id : Bytes)
  /-- CMD_WRITE: the write-card command layout for a card identifier and data, R52. -/
  | cmdWrite (id : Bytes) (data : Bytes)
deriving DecidableEq, Repr

/-- What the `ARG` port carries (10_state.md R21): up to two sequences, or one 256-byte record (R97). A lane the host does
not drive reads as empty, the record lane as zeros: DESIGN CHOICE, log 6. -/
structure Arg where
  seq0 : Bytes := []
  seq1 : Bytes := []
  record : Record := Vector.replicate 256 0#8
deriving DecidableEq, Repr

/-- The device commands the block encodes: exactly three (R50 to R52, R55). It is no list of legal opcodes: a command with any
other opcode is built by the host with NEW, WRITE or WRITE_ALL, and FINALIZE, which test no opcode
(`Machine.customCommandOperations`). -/
inductive DeviceCommand where
  | inventory
  | read
  | write
deriving DecidableEq, Repr

/-- One request to the block: a 16-bit command word with its `ARG` (R49), or one of the three device commands with its
operands on `ARG` (the DEVOP rows of spec/opcode_table.json; DESIGN CHOICE, log 7). -/
inductive Request where
  | word (cw : Half) (arg : Arg)
  | command (c : DeviceCommand) (arg : Arg)
deriving DecidableEq, Repr

end Sys2Proof
end

