-- ==== Sys2Proof/WellFormed.lean ====
section
/-! DEFINITION. Which instructions are well formed. Every operation of R49 is legal on every operand (an operand of a wrong length is answered with an error, R103, R102); the device command layouts of R51 and R52 exist for 8-byte identifiers and data that fits only. -/

namespace Sys2Proof

/-- The layouts R51 and R52 hold `ID[0..8)`, and R52 fits a record when `d ≤ 231`. -/
def Instr.wellFormed : Instr → Bool
  | .crc16 _ => true
  | .new _ => true
  | .write _ => true
  | .writeAll _ => true
  | .finalize => true
  | .payload _ => true
  | .strip _ => true
  | .parse _ => true
  | .encInventory => true
  | .encRead _ => true
  | .encWrite _ _ => true
  | .decInventory _ => true
  | .decRead _ => true
  | .decWrite _ => true
  | .decRaw _ => true
  | .reservedF _ => true
  | .cmdInventory => true
  | .cmdRead id => id.length == Config.idLen
  | .cmdWrite id data => id.length == Config.idLen && decide (data.length ≤ Config.wrDataMax)

end Sys2Proof
end

