-- ==== Sys2Proof/Decode.lean ====
section
/-! DEFINITION. Decoding and encoding: the 16-bit command word (30_encoding.md R49, R53), the device commands by their opcode byte and payload layout (R50 to R52), and the opcode table as rows. -/

namespace Sys2Proof

/-- Why a command word selects no operation. No device opcode is ever rejected (R55). -/
inductive Reject where
  /-- Bits 11:9 are not `000` (R49, R53). -/
  | reservedField
  /-- `sel` is 1 on an operation other than PAYLOAD (R53). -/
  | straySelect
  /-- `imm8` is not 0 on an operation other than NEW and WRITE (R53). -/
  | strayImmediate
deriving DecidableEq, Repr

/-! The fields of the command word (R49). -/

/-- `op`, bits 15:12. -/
def opField (w : Half) : BitVec 4 := w.extractLsb' 12 4

/-- `rsv`, bits 11:9. -/
def rsvField (w : Half) : BitVec 3 := w.extractLsb' 9 3

/-- `sel`, bit 8. -/
def selField (w : Half) : Bool := w.getLsbD 8

/-- `imm8`, bits 7:0. -/
def immField (w : Half) : Byte := w.extractLsb' 0 8

/-- The operation a word selects once its fields are legal: the `op` column of R49. -/
def selectOperation (w : Half) (arg : Arg) : Instr :=
  match (opField w).toNat with
  | 0x0 => .crc16 arg.seq0
  | 0x1 => .new (immField w)
  | 0x2 => .write (immField w)
  | 0x3 => .writeAll arg.seq0
  | 0x4 => .finalize
  | 0x5 => .payload (if selField w then .rxf else .txf)
  | 0x6 => .strip arg.seq0
  | 0x7 => .parse arg.record
  | 0x8 => .encInventory
  | 0x9 => .encRead arg.seq0
  | 0xA => .encWrite arg.seq0 arg.seq1
  | 0xB => .decInventory arg.seq0
  | 0xC => .decRead arg.seq0
  | 0xD => .decWrite arg.seq0
  | 0xE => .decRaw arg.seq0
  | _ => .reservedF (w.extractLsb' 0 12)

/-- Decoding a command word (R49, R53). Total; a word of code F is the row RESERVED_F whatever its other bits are. -/
def decodeWord (w : Half) (arg : Arg) : Except Reject Instr :=
  if opField w = 0xF#4 then .ok (selectOperation w arg)
  else if rsvField w ≠ 0#3 then .error .reservedField
  else if selField w = true ∧ opField w ≠ 0x5#4 then .error .straySelect
  else if immField w ≠ 0#8 ∧ opField w ≠ 0x1#4 ∧ opField w ≠ 0x2#4 then .error .strayImmediate
  else .ok (selectOperation w arg)

/-- The opcode byte of a device command (R50 to R52). -/
def DeviceCommand.opcode : DeviceCommand → Byte
  | .inventory => 0xFE#8
  | .read => 0x02#8
  | .write => 0x04#8

/-- The device command the block itself encodes for an opcode byte (R50 to R52); `none`: a command of that opcode goes by the
custom command path, and is as legal as the three (R55). -/
def commandOf (opcode : Byte) : Option DeviceCommand :=
  if opcode = 0xFE#8 then some .inventory
  else if opcode = 0x02#8 then some .read
  else if opcode = 0x04#8 then some .write
  else none

/-- The instruction of a device command (the DEVOP rows), its operands on `ARG`. -/
def commandInstr : DeviceCommand → Arg → Instr
  | .inventory, _ => .cmdInventory
  | .read, arg => .cmdRead arg.seq0
  | .write, arg => .cmdWrite arg.seq0 arg.seq1

/-- Decoding a request. -/
def decode : Request → Except Reject Instr
  | .word cw arg => decodeWord cw arg
  | .command c arg => .ok (commandInstr c arg)

/-- The request that names an instruction: the encodings of R60, R70 to R74, R85, R86, R100 to R102, R110 to R112, R115,
R53, and the device opcodes of R50 to R52. -/
def encode : Instr → Request
  | .crc16 b => .word 0x0000#16 { seq0 := b }
  | .new start => .word (0x1000#16 ||| start.zeroExtend 16) {}
  | .write b => .word (0x2000#16 ||| b.zeroExtend 16) {}
  | .writeAll b => .word 0x3000#16 { seq0 := b }
  | .finalize => .word 0x4000#16 {}
  | .payload .txf => .word 0x5000#16 {}
  | .payload .rxf => .word 0x5100#16 {}
  | .strip b => .word 0x6000#16 { seq0 := b }
  | .parse record => .word 0x7000#16 { record := record }
  | .encInventory => .word 0x8000#16 {}
  | .encRead id => .word 0x9000#16 { seq0 := id }
  | .encWrite id data => .word 0xA000#16 { seq0 := id, seq1 := data }
  | .decInventory r => .word 0xB000#16 { seq0 := r }
  | .decRead r => .word 0xC000#16 { seq0 := r }
  | .decWrite r => .word 0xD000#16 { seq0 := r }
  | .decRaw r => .word 0xE000#16 { seq0 := r }
  | .reservedF low => .word (0xF000#16 ||| low.zeroExtend 16) {}
  | .cmdInventory => .command .inventory {}
  | .cmdRead id => .command .read { seq0 := id }
  | .cmdWrite id data => .command .write { seq0 := id, seq1 := data }

/-- The bits a request is selected by: its command word, or its device opcode. -/
def Request.selector : Request → Nat
  | .word cw _ => cw.toNat
  | .command c _ => c.opcode.toNat

/-! ## The device command payloads (R50 to R52) -/

/-- R50. -/
def inventoryPayload : Bytes := [0xFE#8, 0x00#8, 0x07#8]

/-- R51. -/
def readPayload (id : Bytes) : Bytes := [0x02#8] ++ id ++ [0x00#8, 0x09#8, 0x0C#8]

/-- R52. -/
def writePayload (id data : Bytes) : Bytes := [0x04#8] ++ id ++ [0x00#8, 0x09#8, 0x00#8] ++ data ++ zeros 8

/-- The payload layout of a device command; `none` for an operation, which has no such layout. -/
def commandPayload : Instr → Option Bytes
  | .cmdInventory => some inventoryPayload
  | .cmdRead id => some (readPayload id)
  | .cmdWrite id data => some (writePayload id data)
  | .crc16 _ | .new _ | .write _ | .writeAll _ | .finalize | .payload _ | .strip _ | .parse _ | .encInventory
  | .encRead _ | .encWrite _ _ | .decInventory _ | .decRead _ | .decWrite _ | .decRaw _ | .reservedF _ => none

/-- Reading a device command back from a frame's payload, every fixed byte and length tested (R50 to R52). `none` is no
rejection: the payload is a custom command's (R55). The block has no such reader; it is the model's addition (log 7). -/
def commandOfPayload : Bytes → Option Instr
  | [] => none
  | op :: p =>
    match commandOf op with
    | none => none
    | some .inventory => if p = [0x00#8, 0x07#8] then some .cmdInventory else none
    | some .read =>
      if p.length = 11 ∧ p.drop 8 = [0x00#8, 0x09#8, 0x0C#8] then some (.cmdRead (p.take 8)) else none
    | some .write =>
      if 19 ≤ p.length ∧ p.length ≤ 19 + Config.wrDataMax ∧ (p.drop 8).take 3 = [0x00#8, 0x09#8, 0x00#8]
          ∧ p.drop (p.length - 8) = zeros 8 then
        some (.cmdWrite (p.take 8) ((p.drop 11).take (p.length - 19)))
      else none

/-! ## The opcode table -/

/-- A row of spec/opcode_table.json: how many bits select it, its mask and its match. -/
structure TableRow where
  nbits : Nat
  mask : Nat
  pattern : Nat
deriving DecidableEq, Repr

/-- Whether a selector of `nbits` bits belongs to a row. -/
def TableRow.accepts (row : TableRow) (nbits w : Nat) : Bool :=
  row.nbits == nbits && (w &&& row.mask) == row.pattern

/-- The row of an instruction. -/
def tableRow : Instr → TableRow
  | .crc16 _ => ⟨16, 0xFFFF, 0x0000⟩
  | .new _ => ⟨16, 0xFF00, 0x1000⟩
  | .write _ => ⟨16, 0xFF00, 0x2000⟩
  | .writeAll _ => ⟨16, 0xFFFF, 0x3000⟩
  | .finalize => ⟨16, 0xFFFF, 0x4000⟩
  | .payload _ => ⟨16, 0xFEFF, 0x5000⟩
  | .strip _ => ⟨16, 0xFFFF, 0x6000⟩
  | .parse _ => ⟨16, 0xFFFF, 0x7000⟩
  | .encInventory => ⟨16, 0xFFFF, 0x8000⟩
  | .encRead _ => ⟨16, 0xFFFF, 0x9000⟩
  | .encWrite _ _ => ⟨16, 0xFFFF, 0xA000⟩
  | .decInventory _ => ⟨16, 0xFFFF, 0xB000⟩
  | .decRead _ => ⟨16, 0xFFFF, 0xC000⟩
  | .decWrite _ => ⟨16, 0xFFFF, 0xD000⟩
  | .decRaw _ => ⟨16, 0xFFFF, 0xE000⟩
  | .reservedF _ => ⟨16, 0xF000, 0xF000⟩
  | .cmdInventory => ⟨8, 0xFF, 0xFE⟩
  | .cmdRead _ => ⟨8, 0xFF, 0x02⟩
  | .cmdWrite _ _ => ⟨8, 0xFF, 0x04⟩

/-- How many bits select a request. -/
def Request.nbits : Request → Nat
  | .word _ _ => 16
  | .command _ _ => 8

/-- Operands of zeros, for a table word that comes without any: an 8-byte first sequence, an empty second one, a record of
zeros (log 8). -/
def zeroArg : Arg := { seq0 := zeros 8 }

/-- The request whose selector is a table word, if there is one: 16 bits for a command word, 8 for the opcode of a device
command (a custom command's opcode is no request by itself, R55). -/
def tableRequest (nbits w : Nat) : Option Request :=
  if nbits = 16 ∧ w < 2 ^ 16 then some (.word (BitVec.ofNat 16 w) zeroArg)
  else if nbits = 8 ∧ w < 2 ^ 8 then (commandOf (BitVec.ofNat 8 w)).map fun c => .command c zeroArg
  else none

/-- The instruction the decoder reads from a word numbered as spec/opcode_table.json numbers it, with operands of zeros. -/
def decodeTableWord (nbits w : Nat) : Option Instr :=
  (tableRequest nbits w).bind fun r => (decode r).toOption

end Sys2Proof
end

