-- ==== Sys2Proof/Machine/State.lean ====
section
/-! DEFINITION. The state: the two frame slots (10_state.md R10 to R12), and the block's ports as plain data (R21; log 1). -/

namespace Sys2Proof.Machine

/-- A frame `(buf, final)` (R11): `final = false` is open, `final = true` is finalized. -/
structure Frame where
  buf : Bytes
  final : Bool
deriving DecidableEq, Repr

/-- The error kinds (60_exceptions.md R121), an enumeration without fields (R122). -/
inductive ErrKind where
  | transportError
  | wrongChecksum
  | wrongResponse
  | emptyResponse
  | wrongCardId
  | noCard
  | notImplemented
  | noFrame
  | writeAfterFinal
  | overflow
  | shortRecord
deriving DecidableEq, Repr

/-- The class of a start byte (42_frame_parser.md R92). -/
inductive StartClass where
  | setup
  | data
  | other
deriving DecidableEq, Repr

/-- The value an operation returns on `Ok` (30_encoding.md R49, last table, column "result on `Ok`"). -/
inductive Value where
  | nothing
  | half (v : Half)
  | bytes (v : Bytes)
  | optBytes (v : Option Bytes)
  | length (n : Nat)
  | frame (bytes : Bytes) (startClass : StartClass) (lenOk : Bool)
  | ids (v : List Bytes)
deriving DecidableEq, Repr

/-- What `RES` carries (R120): `Ok(value)` or `Err(kind)`. -/
inductive Res where
  | ok (v : Value)
  | err (k : ErrKind)
deriving DecidableEq, Repr

/-- A move of the host (70_reset_and_hazards.md R156), as the block sees it. -/
inductive HostMove where
  /-- One operation is issued (R156, first row). -/
  | issue (r : Request)
  /-- A second operation is issued before the first has returned (20_memory.md R38). -/
  | issueTwo (first second : Request)
  /-- The external reset event (R141). -/
  | reset
deriving DecidableEq, Repr

/-- The machine. `txf` and `rxf` are the whole architectural state (R10); `input` and `res` hold the ports (log 1, log 15). -/
structure State where
  /-- `TXF`, the frame being built (R12). -/
  txf : Option Frame
  /-- `RXF`, the frame last parsed (R12). -/
  rxf : Option Frame
  /-- `CW` and `ARG`: the moves the host has yet to make, oldest first (R21, R37). -/
  input : List HostMove
  /-- `RES`: what it last drove (R21, R120). -/
  res : Option Res
deriving DecidableEq, Repr

/-- The machine's own stops. -/
inductive Fault where
  /-- FINALIZE on an open frame that is not 3 to 254 bytes long. No run reaches such a frame (R14), and R77 forbids a meaning
  for a frame longer than 256 bytes. Raised by FINALIZE only; `customCommand` of the session passes it on. Safe: the model stops
  (log 5). -/
  | openFrameOutOfBounds
deriving DecidableEq, Repr

/-- Requests the model gives no step. -/
inductive Refusal where
  /-- An instruction without a meaning yet; raised by `exec`'s arms only. Safe. -/
  | notModelled (mnemonic : String)
  /-- Two operations at once (R38: "A model gives such a host no step (it is refused)"). Raised by the step. Safe (log 10). -/
  | concurrentIssue
deriving DecidableEq, Repr

/-- The machine right after reset (R22, R140): both slots hold no frame. `input` and `res` are log 2. -/
def State.reset : State where
  txf := none
  rxf := none
  input := []
  res := none

end Sys2Proof.Machine
end

