-- ==== Sys2Proof/Machine/Operands.lean ====
section
/-! DEFINITION. Operand forms: byte order (20_memory.md R28), slices and byte-space accesses (00_scope.md R7, R8), padding to a record, the operands the decoders assemble (30_encoding.md R48). -/

namespace Sys2Proof.Machine

/-- `hi8(v) = v[15:8]` (R6). -/
def hi8 (v : Half) : Byte := v.extractLsb' 8 8

/-- `lo8(v) = v[7:0]` (R6). -/
def lo8 (v : Half) : Byte := v.extractLsb' 0 8

/-- `BE16(h, l) = 256*h + l` (R6). -/
def be16 (h l : Byte) : Half := h ++ l

/-- `B[i..j)` (R7). -/
def slice (b : Bytes) (i j : Nat) : Bytes := (b.drop i).take (j - i)

/-- `B[i]` (R7); a rule reads inside `B` only. -/
def byteAt (b : Bytes) (i : Nat) : Byte := b.getD i 0#8

/-- `MemRead(space, addr, n)` (R8). -/
def memRead (b : Bytes) (addr n : Nat) : Bytes := slice b addr (addr + n)

/-- `MemWrite(space, addr, n, v)` with `n = len(v)` (R8). -/
def memWrite (b : Bytes) (addr : Nat) (v : Bytes) : Bytes := b.take addr ++ v ++ b.drop (addr + v.length)

/-- A 16-bit value as its two bytes, big-endian (R28). -/
def bigEndian (v : Half) : Bytes := [hi8 v, lo8 v]

/-- `F ++ zeros(256 − len(F))`, the record of a frame (70_reset_and_hazards.md R143); bytes past 256 do not fit a record. -/
def pad (f : Bytes) : Record :=
  ⟨((f ++ zeros 256).take 256).toArray, by
    rw [List.size_toArray, List.length_take, List.length_append, List.length_replicate]; omega⟩

/-- The frame in the slot that PAYLOAD's `sel` names (R74). -/
def slotFrame (sel : Slot) (s : State) : Option Frame :=
  match sel with
  | .txf => s.txf
  | .rxf => s.rxf

/-- `card_count = R[4]`, an unsigned byte (R48). -/
def cardCount (r : Bytes) : Nat := (byteAt r Config.invCountOff).toNat

/-- The offset of card record `i`: `6 + 9*i`, an integer that never wraps (R48, R113). -/
def recordOffset (i : Nat) : Nat := Config.invRecOff + Config.recLen * i

/-- The identifier of card `i`: `R[6+9*i .. 6+9*i+8)` (R48). -/
def cardIdentifier (r : Bytes) (i : Nat) : Bytes := memRead r (recordOffset i) Config.idLen

/-- The status byte of a read or write response, `R[1]` (R48, R117). -/
def statusByte (r : Bytes) : Byte := byteAt r Config.rdStatusOff

end Sys2Proof.Machine
end

