-- ==== Sys2Proof/Machine/Flags.lean ====
section
/-! DEFINITION. The conditions the block computes: PARSE's start class and length check (42_frame_parser.md R92, R93), and the status code on RES (60_exceptions.md R121). The block's only stored flag is `Frame.final` (10_state.md R13). -/

namespace Sys2Proof.Machine

/-- The start-byte validator (R92). -/
def classOf (b : Byte) : StartClass :=
  if b = Config.startSetup then .setup else if b = Config.startData then .data else .other

/-- The length check (R93) on a record whose logical length is `n`; compared as integers. -/
def lengthAgrees (b : Bytes) (n : Nat) : Bool :=
  decide (((be16 (byteAt b 1) (byteAt b 2)).toNat : Int) = (n : Int) - 3)

/-- The 4-bit code of a kind (R121). -/
def ErrKind.code : ErrKind → BitVec 4
  | .transportError => 1
  | .wrongChecksum => 2
  | .wrongResponse => 3
  | .emptyResponse => 4
  | .wrongCardId => 5
  | .noCard => 6
  | .notImplemented => 7
  | .noFrame => 8
  | .writeAfterFinal => 9
  | .overflow => 10
  | .shortRecord => 11

/-- The status code on `RES` (R120, R121): 0 is `Ok`. -/
def Res.status : Res → BitVec 4
  | .ok _ => 0
  | .err k => k.code

end Sys2Proof.Machine
end

