-- ==== Sys2Proof/Machine/Ops.lean ====
section
/-! DEFINITION. The shared operations: answering on RES and raising an error, the checksum function, the trailing-zero stripper, and the builder's operations on a frame slot. -/

namespace Sys2Proof.Machine

/-! ## Results -/

/-- `return v`: the operation ends with `Ok(v)` (R8, R120). -/
def answer (v : Value) (s : State) : State := { s with res := some (.ok v) }

/-- `raise k`: the operation ends with `Err(k)`; no slot changes, nothing is saved and control goes nowhere (R120, R122,
R127). There is nothing to return from (R129). Every kind is an `Err` result, 7 to 11 among them: log 4. -/
def raise (k : ErrKind) (s : State) : State := { s with res := some (.err k) }

/-- An operation that changes no slot ends with its result. -/
def settleValue (r : Except ErrKind Value) (s : State) : State :=
  match r with
  | .ok v => answer v s
  | .error k => raise k s

/-- An operation on `TXF` ends: the new frame is stored and answered, or the error leaves `TXF` as it was (R127). -/
def settleFrame (r : Except ErrKind Frame) (value : Frame → Value) (s : State) : State :=
  match r with
  | .ok f => answer (value f) { s with txf := some f }
  | .error k => raise k s

/-! ## The checksum (40_checksum.md) -/

/-- The bit step (R61): the top bit is taken before the shift. -/
def crcBit (r : Half) (bit : Bool) : Half :=
  if r.getLsbD 15 != bit then (r <<< 1) ^^^ Config.crcPoly else r <<< 1

/-- The byte step (R62): eight bit steps, bit 7 first. -/
def crcByte (r : Half) (b : Byte) : Half :=
  [7, 6, 5, 4, 3, 2, 1, 0].foldl (fun r i => crcBit r (b.getLsbD i)) r

/-- `CRC16(B)` (R60). -/
def crc16 (b : Bytes) : Half := b.foldl crcByte Config.crcInit ^^^ Config.crcXorOut

/-! ## The stripper (42_frame_parser.md R85) -/

/-- The loop of R85 from length `n` down. -/
def stripFrom (b : Bytes) : Nat → Nat
  | 0 => 0
  | n + 1 => if byteAt b n = 0#8 then stripFrom b n else n + 1

/-- `STRIP(B)`: the logical length (R85). -/
def strip (b : Bytes) : Nat := stripFrom b b.length

/-! ## The builder (41_frame_builder.md) -/

/-- NEW (R70). -/
def newFrame (start : Byte) : Frame := ⟨[start, 0x00#8, 0x00#8], false⟩

/-- WRITE on a slot (R71): the three tests in their order, then the append. -/
def writeByte (slot : Option Frame) (b : Byte) : Except ErrKind Frame :=
  match slot with
  | none => .error .noFrame
  | some f =>
    if f.final then .error .writeAfterFinal
    else if f.buf.length ≥ Config.openMax then .error .overflow
    else .ok ⟨f.buf ++ [b], false⟩

/-- WRITE_ALL on a slot (R72): all or nothing. -/
def writeBytes (slot : Option Frame) (b : Bytes) : Except ErrKind Frame :=
  match slot with
  | none => .error .noFrame
  | some f =>
    if f.final then .error .writeAfterFinal
    else if f.buf.length + b.length > Config.openMax then .error .overflow
    else .ok ⟨f.buf ++ b, false⟩

/-- The length encoder (30_encoding.md R46) on an open frame of `t = len(buf)` bytes: `t − 1`. -/
def lengthField (buf : Bytes) : Half := BitVec.ofNat 16 (buf.length - 1)

/-- FINALIZE on a frame (R73): a finalized frame is left as it is (R75); an open one gets its length, then its checksum. -/
def finalizeFrame (f : Frame) : Frame :=
  if f.final then f
  else
    let buf := memWrite f.buf 1 (bigEndian (lengthField f.buf))
    ⟨buf ++ bigEndian (crc16 (slice buf 1 f.buf.length)), true⟩

/-- FINALIZE on a slot (R73). -/
def finalizeSlot (slot : Option Frame) : Except ErrKind Frame :=
  match slot with
  | none => .error .noFrame
  | some f => .ok (finalizeFrame f)

/-- R73's bound `3 <= t <= 254` on an open frame; a slot FINALIZE may be given (log 5). -/
def withinBounds : Option Frame → Bool
  | none => true
  | some f => f.final || (decide (Config.headerSize ≤ f.buf.length) && decide (f.buf.length ≤ Config.openMax))

/-- The end of a frame's payload region (R74, R80), an integer. -/
def payloadEnd (f : Frame) : Int := if f.final then (f.buf.length : Int) - 2 else f.buf.length

/-- PAYLOAD of a frame (R74): `None` when the region is empty. -/
def payloadOf (f : Frame) : Option Bytes :=
  if payloadEnd f ≤ 3 then none else some (slice f.buf 3 (payloadEnd f).toNat)

/-- PAYLOAD on a slot (R74). -/
def payloadSlot (slot : Option Frame) : Except ErrKind Value :=
  match slot with
  | none => .error .noFrame
  | some f => .ok (.optBytes (payloadOf f))

/-- The wire frame of R40 for a start byte and a payload: `[start][length][payload][checksum]`, length `2 + p` (R42),
checksum over the length and the payload (R44). -/
def wireFrame (start : Byte) (payload : Bytes) : Bytes :=
  let covered := bigEndian (BitVec.ofNat 16 (2 + payload.length)) ++ payload
  start :: covered ++ bigEndian (crc16 covered)

end Sys2Proof.Machine
end

