-- ==== Sys2Proof/Machine/Builder.lean ====
section
/-! DEFINITION. The frame builder family (41_frame_builder.md): NEW, WRITE, WRITE_ALL, FINALIZE, PAYLOAD. -/

namespace Sys2Proof.Machine

/-- NEW(s) (R70): whatever `TXF` held is discarded. -/
def execNew (start : Byte) (s : State) : Host.Outcome State Fault Refusal :=
  .next (settleFrame (.ok (newFrame start)) (fun _ => .nothing) s)

/-- WRITE(b) (R71). -/
def execWrite (b : Byte) (s : State) : Host.Outcome State Fault Refusal :=
  .next (settleFrame (writeByte s.txf b) (fun _ => .nothing) s)

/-- WRITE_ALL(B) (R72). -/
def execWriteAll (b : Bytes) (s : State) : Host.Outcome State Fault Refusal :=
  .next (settleFrame (writeBytes s.txf b) (fun _ => .nothing) s)

/-- FINALIZE() (R73); an open frame outside R73's bound has no meaning (R77; log 5). -/
def execFinalize (s : State) : Host.Outcome State Fault Refusal :=
  if withinBounds s.txf then .next (settleFrame (finalizeSlot s.txf) (fun f => .bytes f.buf) s)
  else .fault .openFrameOutOfBounds

/-- PAYLOAD(sel) (R74). -/
def execPayload (sel : Slot) (s : State) : Host.Outcome State Fault Refusal :=
  .next (settleValue (payloadSlot (slotFrame sel s)) s)

end Sys2Proof.Machine
end

