-- ==== Sys2Proof/Machine/Checksum.lean ====
section
/-! DEFINITION. The checksum family (40_checksum.md): CRC16. -/

namespace Sys2Proof.Machine

/-- CRC16(B) (R60, R65): the checksum; no state is read or written. -/
def execCrc16 (b : Bytes) (s : State) : Host.Outcome State Fault Refusal :=
  .next (settleValue (.ok (.half (crc16 b))) s)

end Sys2Proof.Machine
end

