-- ==== Sys2Proof/Machine/Command.lean ====
section
/-! DEFINITION. The device command layouts (30_encoding.md R50 to R52) as requests: the block builds the command's frame straight from its layout. That a DEVOP row is run so is DESIGN CHOICE, log 7. -/

namespace Sys2Proof.Machine

/-- The finalized frame of a device command: start byte, length, the layout's payload, checksum (R40, R43). -/
def commandFrame (start : Byte) (payload : Bytes) : Frame := ⟨wireFrame start payload, true⟩

/-- The identifier and data tests of R103 and R102, which come before anything else. -/
def checkCommand (id data : Bytes) : Except ErrKind Unit :=
  if id.length ≠ Config.idLen then .error .wrongCardId
  else if data.length > Config.wrDataMax then .error .overflow
  else .ok ()

/-- CMD_INVENTORY (R50), on the "data" start byte. -/
def execCmdInventory (s : State) : Host.Outcome State Fault Refusal :=
  .next (settleFrame (.ok (commandFrame Config.startData inventoryPayload)) (fun f => .bytes f.buf) s)

/-- CMD_READ (R51). -/
def execCmdRead (id : Bytes) (s : State) : Host.Outcome State Fault Refusal :=
  .next (settleFrame ((checkCommand id []).map fun _ => commandFrame Config.startRead (readPayload id))
    (fun f => .bytes f.buf) s)

/-- CMD_WRITE (R52). -/
def execCmdWrite (id data : Bytes) (s : State) : Host.Outcome State Fault Refusal :=
  .next (settleFrame ((checkCommand id data).map fun _ => commandFrame Config.startWrite (writePayload id data))
    (fun f => .bytes f.buf) s)

end Sys2Proof.Machine
end

