-- ==== Sys2Proof/Machine/Device.lean ====
section
/-! DEFINITION. The device family (43_device_protocol.md): the three command encoders and the four response decoders. -/

namespace Sys2Proof.Machine

/-! ## Encoders: the expansions of 30_encoding.md R59 -/

/-- R100. -/
def encodeInventory : Except ErrKind Frame := do
  let f ← writeBytes (some (newFrame Config.startData)) [0xFE#8, 0x00#8, 0x07#8]
  finalizeSlot (some f)

/-- R101: the identifier is tested before anything else (R103). -/
def encodeRead (id : Bytes) : Except ErrKind Frame :=
  if id.length ≠ Config.idLen then .error .wrongCardId
  else do
    let f ← writeByte (some (newFrame Config.startRead)) 0x02#8
    let f ← writeBytes (some f) id
    let f ← writeBytes (some f) [0x00#8, 0x09#8, 0x0C#8]
    finalizeSlot (some f)

/-- R102: the identifier, then the data length, are tested before anything else (R103, D23). -/
def encodeWrite (id data : Bytes) : Except ErrKind Frame :=
  if id.length ≠ Config.idLen then .error .wrongCardId
  else if data.length > Config.wrDataMax then .error .overflow
  else do
    let f ← writeByte (some (newFrame Config.startWrite)) 0x04#8
    let f ← writeBytes (some f) id
    let f ← writeBytes (some f) [0x00#8, 0x09#8, 0x00#8]
    let f ← writeBytes (some f) data
    let f ← writeBytes (some f) (zeros 8)
    finalizeSlot (some f)

/-- ENC_INVENTORY() (R100). -/
def execEncInventory (s : State) : Host.Outcome State Fault Refusal :=
  .next (settleFrame encodeInventory (fun f => .bytes f.buf) s)

/-- ENC_READ(ID) (R101). -/
def execEncRead (id : Bytes) (s : State) : Host.Outcome State Fault Refusal :=
  .next (settleFrame (encodeRead id) (fun f => .bytes f.buf) s)

/-- ENC_WRITE(ID, DATA) (R102). -/
def execEncWrite (id data : Bytes) (s : State) : Host.Outcome State Fault Refusal :=
  .next (settleFrame (encodeWrite id data) (fun f => .bytes f.buf) s)

/-! ## Decoders: functions of the response payload alone (R116) -/

/-- R110, its three tests in their order (D13). -/
def decodeInventory (r : Bytes) : Except ErrKind (List Bytes) :=
  if r.length < Config.invMin then .error .wrongResponse
  else if cardCount r = 0 then .error .noCard
  else if r.length < recordOffset (cardCount r) then .error .wrongResponse
  else .ok ((List.range (cardCount r)).map (cardIdentifier r))

/-- The adjusted end of R111 and R114: an integer, possibly negative. -/
def adjustedEnd (r : Bytes) : Int := (strip r : Int) - Config.rdTail

/-- R111. -/
def decodeRead (r : Bytes) : Except ErrKind Bytes :=
  if r.length < Config.rdMin then .error .wrongResponse
  else if statusByte r ≠ 0#8 then .error .noCard
  else if adjustedEnd r ≤ Config.rdDataOff then .ok []
  else .ok (slice r Config.rdDataOff (adjustedEnd r).toNat)

/-- R112. -/
def decodeWrite (r : Bytes) : Except ErrKind Unit :=
  if r.length < Config.wrMin then .error .wrongResponse
  else if byteAt r Config.wrStatusOff ≠ 0#8 then .error .noCard
  else .ok ()

/-- R115: nothing is tested. -/
def decodeRaw (r : Bytes) : Except ErrKind Bytes := .ok r

/-- DEC_INVENTORY(R) (R110). -/
def execDecInventory (r : Bytes) (s : State) : Host.Outcome State Fault Refusal :=
  .next (settleValue ((decodeInventory r).map .ids) s)

/-- DEC_READ(R) (R111). -/
def execDecRead (r : Bytes) (s : State) : Host.Outcome State Fault Refusal :=
  .next (settleValue ((decodeRead r).map .bytes) s)

/-- DEC_WRITE(R) (R112). -/
def execDecWrite (r : Bytes) (s : State) : Host.Outcome State Fault Refusal :=
  .next (settleValue ((decodeWrite r).map fun _ => .nothing) s)

/-- DEC_RAW(R) (R115). -/
def execDecRaw (r : Bytes) (s : State) : Host.Outcome State Fault Refusal :=
  .next (settleValue ((decodeRaw r).map .bytes) s)

end Sys2Proof.Machine
end

