-- ==== Sys2Proof/Machine/Parser.lean ====
section
/-! DEFINITION. The parser family (42_frame_parser.md): STRIP, PARSE. -/

namespace Sys2Proof.Machine

/-- STRIP(B) (R85): the logical length; no state is read or written. -/
def execStrip (b : Bytes) (s : State) : Host.Outcome State Fault Refusal :=
  .next (settleValue (.ok (.length (strip b))) s)

/-- The declared checksum of `n` logical bytes: the last two, big-endian (R47, R86). -/
def declaredChecksum (b : Bytes) (n : Nat) : Half := be16 (byteAt b (n - 2)) (byteAt b (n - 1))

/-- The recomputed checksum: over `REC[1..n−2)` (R86, R69). -/
def computedChecksum (b : Bytes) (n : Nat) : Half := crc16 (slice b 1 (n - 2))

/-- The five steps of R86 and R87: the logical bytes of a record that passes. -/
def parseRecord (record : Record) : Except ErrKind Bytes :=
  let b := record.toList
  let n := strip b
  if n < 3 then .error .shortRecord
  else if computedChecksum b n ≠ declaredChecksum b n then .error .wrongChecksum
  else .ok (slice b 0 n)

/-- What PARSE returns for the logical bytes: the bytes, `start_class`, `len_ok` (R92, R93); neither gates anything. -/
def parseValue (logical : Bytes) : Value :=
  .frame logical (classOf (byteAt logical 0)) (lengthAgrees logical logical.length)

/-- PARSE ends: `RXF` holds the finalized frame (R88), or nothing after a failure (R89). -/
def settleParse (r : Except ErrKind Bytes) (s : State) : State :=
  match r with
  | .ok logical => answer (parseValue logical) { s with rxf := some ⟨logical, true⟩ }
  | .error k => raise k { s with rxf := none }

/-- PARSE(REC) (R86). -/
def execParse (record : Record) (s : State) : Host.Outcome State Fault Refusal :=
  .next (settleParse (parseRecord record) s)

end Sys2Proof.Machine
end

