-- ==== Sys2Proof/Machine/Reserved.lean ====
section
/-! DEFINITION. Words that select no operation (30_encoding.md R53). -/

namespace Sys2Proof.Machine

/-- RESERVED_F (R53): `Err(NotImplemented)`, no state changes. -/
def execReservedF (_low : BitVec 12) (s : State) : Host.Outcome State Fault Refusal :=
  .next (raise .notImplemented s)

end Sys2Proof.Machine
end

