-- ==== Sys2Proof/Machine/Dispatch.lean ====
section
/-! DEFINITION. The dispatch: one arm per constructor of Instr. -/

namespace Sys2Proof.Machine

def exec (i : Instr) (s : State) : Host.Outcome State Fault Refusal :=
  match i with
  | .crc16 b => Sys2Proof.Machine.execCrc16 b s
  | .new start => Sys2Proof.Machine.execNew start s
  | .write b => Sys2Proof.Machine.execWrite b s
  | .writeAll b => Sys2Proof.Machine.execWriteAll b s
  | .finalize => Sys2Proof.Machine.execFinalize s
  | .payload sel => Sys2Proof.Machine.execPayload sel s
  | .strip b => Sys2Proof.Machine.execStrip b s
  | .parse record => Sys2Proof.Machine.execParse record s
  | .encInventory => Sys2Proof.Machine.execEncInventory s
  | .encRead id => Sys2Proof.Machine.execEncRead id s
  | .encWrite id data => Sys2Proof.Machine.execEncWrite id data s
  | .decInventory r => Sys2Proof.Machine.execDecInventory r s
  | .decRead r => Sys2Proof.Machine.execDecRead r s
  | .decWrite r => Sys2Proof.Machine.execDecWrite r s
  | .decRaw r => Sys2Proof.Machine.execDecRaw r s
  | .reservedF low => Sys2Proof.Machine.execReservedF low s
  | .cmdInventory => Sys2Proof.Machine.execCmdInventory s
  | .cmdRead id => Sys2Proof.Machine.execCmdRead id s
  | .cmdWrite id data => Sys2Proof.Machine.execCmdWrite id data s

end Sys2Proof.Machine
end

