-- ==== Sys2Proof/Machine/Issue.lean ====
section
/-! DEFINITION. The host's moves (70_reset_and_hazards.md R156) as the block meets them: issuing an operation, issuing two at once, reset, and waiting. -/

namespace Sys2Proof.Machine

/-- One operation is issued: the request is decoded before anything else (60_exceptions.md R124); one that selects no
operation is answered `Err(NotImplemented)` without a state change (R53; log 12). -/
def issue (r : Request) (s : State) : Host.Outcome State Fault Refusal :=
  match decode r with
  | .ok i => exec i s
  | .error _ => .next (raise .notImplemented s)

/-- The reset event (R140, R141): both frames are discarded, nothing is driven; the moves the host has yet to make remain
(log 11). -/
def resetEvent (s : State) : State := { State.reset with input := s.input }

/-- The effect of one move. -/
def runMove (m : HostMove) (s : State) : Host.Outcome State Fault Refusal :=
  match m with
  | .issue r => issue r s
  | .issueTwo _ _ => .refused .concurrentIssue
  | .reset => .next (resetEvent s)

/-- Taking the next move: it leaves `input` and its effect is one atomic step (R33, R37). With none pending the block waits,
unchanged (R141, R155; log 9). -/
def takeMove (s : State) : Host.Outcome State Fault Refusal :=
  match s.input with
  | [] => .next s
  | m :: rest => runMove m { s with input := rest }

/-- A sequence of operations issued one after the other, each from the state the one before left (R37). -/
def execAll : List Instr → State → Host.Outcome State Fault Refusal
  | [], s => .next s
  | i :: rest, s =>
    match exec i s with
    | .next s' => execAll rest s'
    | .fault r => .fault r
    | .refused r => .refused r

/-- The host's moves that issue operations one after the other (R37). -/
def issueAll (is : List Instr) : List HostMove := is.map fun i => .issue (encode i)

/-- The custom command path, command side (30_encoding.md R55; 43_device_protocol.md R115): the operations with which the host
builds a device command of any opcode, on any start byte. No operation tests the opcode. The reply side is PARSE, PAYLOAD of
`RXF`, DEC_RAW. -/
def customCommandOperations (start opcode : Byte) (operands : Bytes) : List Instr :=
  [.new start, .write opcode, .writeAll operands, .finalize]

end Sys2Proof.Machine
end

