-- ==== Sys2Proof/Machine/Step.lean ====
section
/-! DEFINITION. The step: one move of the host, one atomic transaction (10_state.md R21; 20_memory.md R33, R37). -/

namespace Sys2Proof.Machine

/-- One step. -/
def step (s : State) : Host.Outcome State Fault Refusal := takeMove s

/-- `s` with a table word issued as its next move, operands of zeros; as it is when no request has that word (log 8). -/
def State.withFetchWord (s : State) (nbits w : Nat) : State :=
  { s with input := (tableRequest nbits w).toList.map .issue ++ s.input }

end Sys2Proof.Machine
end

