-- ==== Sys2Proof/Machine/Session.lean ====
section
/-! DEFINITION. The host's contract, the source's Reader Session (60_exceptions.md R130 to R136; outside the block, 00_scope.md R4): `perform` and the device operations over the block's own operations and a transport that answers as an oracle. It is no part of the step (log 13). -/

namespace Sys2Proof.Machine

/-- The transport's own error, opaque: no rule inspects it (R122, R134; U5). -/
structure TransportFailure where
  detail : Nat
deriving DecidableEq, Repr

/-- What `receive_into` answers (R136): its error, or the count it reports and the record as the buffer then stands. -/
inductive Reception where
  | failed (e : TransportFailure)
  | got (count : Nat) (record : Record)
deriving DecidableEq, Repr

/-- One exchange with the transport: how `transmit` fails, if it does, and what `receive_into` answers. Any values (R130). -/
structure Exchange where
  transmitFailure : Option TransportFailure
  reception : Reception
deriving DecidableEq, Repr

/-- Why `perform` or a device operation fails: the collaborator's error passed through, or a kind of R121; or the block stops on
an operation of it, which only `customCommand` meets. -/
inductive SessionError where
  | transport (e : TransportFailure)
  | kind (k : ErrKind)
  | stop (r : Fault)
deriving DecidableEq, Repr

/-- The kind of R121 that a session error is reported as; a stop of the block is none. -/
def sessionErrorKind : SessionError → Option ErrKind
  | .transport _ => some .transportError
  | .kind k => some k
  | .stop _ => none

/-- The host's side: the block, and what it has handed to `transmit`, oldest first. -/
structure Session where
  block : State
  sent : List Bytes
deriving DecidableEq, Repr

/-- The step of `perform` after a record has come: PARSE, then PAYLOAD(RXF) (R131, R133). -/
def parseReply (record : Record) (h : Session) : Session × Except SessionError Bytes :=
  let parsed := settleParse (parseRecord record) h.block
  match parseRecord record with
  | .error k => ({ h with block := parsed }, .error (.kind k))
  | .ok _ =>
    let read := settleValue (payloadSlot parsed.rxf) parsed
    match parsed.rxf.bind payloadOf with
    | none => ({ h with block := read }, .error (.kind .wrongResponse))
    | some r => ({ h with block := read }, .ok r)

/-- `perform(command_frame)` (R131): transmit, wait, receive, parse. The wait takes no time in the model (R135; log 17). -/
def perform (x : Exchange) (command : Bytes) (h : Session) : Session × Except SessionError Bytes :=
  let h := { h with sent := h.sent ++ [command] }
  match x.transmitFailure with
  | some e => (h, .error (.transport e))
  | none =>
    match x.reception with
    | .failed e => (h, .error (.transport e))
    | .got count record => if count = 0 then (h, .error (.kind .emptyResponse)) else parseReply record h

/-- A device operation (R119, R126): the encoder, `perform` on its frame, the decoder; the first error ends it. -/
def deviceOperation {α : Type} (encoder : Except ErrKind Frame) (decoder : Bytes → Except ErrKind α)
    (wrap : α → Value) (x : Exchange) (h : Session) : Session × Except SessionError α :=
  let encoded := settleFrame encoder (fun f => .bytes f.buf) h.block
  match encoder with
  | .error k => ({ h with block := encoded }, .error (.kind k))
  | .ok f =>
    match perform x f.buf { h with block := encoded } with
    | (h, .error e) => (h, .error e)
    | (h, .ok r) => ({ h with block := settleValue ((decoder r).map wrap) h.block }, (decoder r).mapError .kind)

/-- Inventory. -/
def inventory : Exchange → Session → Session × Except SessionError (List Bytes) :=
  deviceOperation encodeInventory decodeInventory .ids

/-- Read card. -/
def readCard (id : Bytes) : Exchange → Session → Session × Except SessionError Bytes :=
  deviceOperation (encodeRead id) decodeRead .bytes

/-- Write card. -/
def writeCard (id data : Bytes) : Exchange → Session → Session × Except SessionError Unit :=
  deviceOperation (encodeWrite id data) decodeWrite (fun _ => .nothing)

/-- Custom command (43_device_protocol.md R115; 60_exceptions.md R131): the frame the host has built in `TXF`, finalized; the
raw payload comes back. On an open frame outside 3 to 254 bytes, which R14 rules out and to which 41_frame_builder.md R77 gives
no meaning, it stops as FINALIZE does, transmits nothing and leaves the block as it is: DESIGN CHOICE, safe (log 5, log 13). -/
def customCommand (x : Exchange) (h : Session) : Session × Except SessionError Bytes :=
  if withinBounds h.block.txf then deviceOperation (finalizeSlot h.block.txf) decodeRaw .bytes x h
  else (h, .error (.stop .openFrameOutOfBounds))

end Sys2Proof.Machine
end

