-- ==== Sys2Proof/Safety.lean ====
section
/-! DEFINITION. The invariants of the two slots (10_state.md R14, R15), the classes of the error kinds (60_exceptions.md R139), which kinds an operation can raise (R123), and what is observed of a run (70_reset_and_hazards.md R155). -/

namespace Sys2Proof.Machine

/-- The checksum field of a finalized frame is the checksum of `buf[1..len−2)` (R14, R15). -/
abbrev Frame.Sealed (f : Frame) : Prop :=
  be16 (byteAt f.buf (f.buf.length - 2)) (byteAt f.buf (f.buf.length - 1)) = crc16 (slice f.buf 1 (f.buf.length - 2))

/-- The invariant of an open frame (R14). -/
abbrev Frame.OpenOk (f : Frame) : Prop :=
  3 ≤ f.buf.length ∧ f.buf.length ≤ 254 ∧ byteAt f.buf 1 = 0#8 ∧ byteAt f.buf 2 = 0#8

/-- The invariant of a frame the builder finalized (R14). -/
abbrev Frame.BuiltOk (f : Frame) : Prop :=
  5 ≤ f.buf.length ∧ f.buf.length ≤ 256 ∧ (be16 (byteAt f.buf 1) (byteAt f.buf 2)).toNat = f.buf.length - 3 ∧ f.Sealed

/-- The invariant of a frame in `TXF` (R14). -/
abbrev Frame.TxOk (f : Frame) : Prop :=
  (f.final = false → f.OpenOk) ∧ (f.final = true → f.BuiltOk)

/-- The invariant of a frame in `RXF` (R15). -/
abbrev Frame.RxOk (f : Frame) : Prop :=
  f.final = true ∧ 4 ≤ f.buf.length ∧ f.buf.length ≤ 256 ∧ byteAt f.buf (f.buf.length - 1) ≠ 0#8 ∧ f.Sealed

/-- A property of the frame a slot holds, if it holds one. -/
abbrev slotHas (p : Frame → Prop) (slot : Option Frame) : Prop := ∀ f, slot = some f → p f

/-- The invariant of the machine (R14, R15). -/
structure State.Inv (s : State) : Prop where
  tx : slotHas Frame.TxOk s.txf
  rx : slotHas Frame.RxOk s.rxf

/-- Kinds 2, 3, 5, 6: outcomes a claim may speak of (R139). -/
def ErrKind.isOutcome : ErrKind → Bool
  | .wrongChecksum | .wrongResponse | .wrongCardId | .noCard => true
  | .transportError | .emptyResponse | .notImplemented | .noFrame | .writeAfterFinal | .overflow | .shortRecord => false

/-- Kinds 7 to 11: faults of the host's program (R139). -/
def ErrKind.isHostFault : ErrKind → Bool
  | .notImplemented | .noFrame | .writeAfterFinal | .overflow | .shortRecord => true
  | .transportError | .wrongChecksum | .wrongResponse | .emptyResponse | .wrongCardId | .noCard => false

/-- A safe step answers a next state, and what it drove on `RES` is no fault of the host's program. -/
def SafeStep (s : State) : Prop :=
  ∃ s', step s = .next s' ∧ ∀ k, s'.res = some (.err k) → k.isHostFault = false

/-- Issuing `i` at `s` is answered `Err(k)`. -/
def Raises (i : Instr) (s : State) (k : ErrKind) : Prop := ∃ t, exec i s = .next t ∧ t.res = some (.err k)

/-- The kinds an operation can raise, in the order tested (R123). -/
def raisable : Instr → List ErrKind
  | .crc16 _ => []
  | .new _ => []
  | .write _ => [.noFrame, .writeAfterFinal, .overflow]
  | .writeAll _ => [.noFrame, .writeAfterFinal, .overflow]
  | .finalize => [.noFrame]
  | .payload _ => [.noFrame]
  | .strip _ => []
  | .parse _ => [.shortRecord, .wrongChecksum]
  | .encInventory => []
  | .encRead _ => [.wrongCardId]
  | .encWrite _ _ => [.wrongCardId, .overflow]
  | .decInventory _ => [.wrongResponse, .noCard]
  | .decRead _ => [.wrongResponse, .noCard]
  | .decWrite _ => [.wrongResponse, .noCard]
  | .decRaw _ => []
  | .reservedF _ => [.notImplemented]
  | .cmdInventory => []
  | .cmdRead _ => [.wrongCardId]
  | .cmdWrite _ _ => [.wrongCardId, .overflow]

/-- The operations that discard the frame in `TXF` and start another: NEW, the encoders (41_frame_builder.md R76), and the
device commands, which build as the encoders do (log 7). -/
def startsFrame : Instr → Bool
  | .new _ | .encInventory | .encRead _ | .encWrite _ _ | .cmdInventory | .cmdRead _ | .cmdWrite _ _ => true
  | .crc16 _ | .write _ | .writeAll _ | .finalize | .payload _ | .strip _ | .parse _ | .decInventory _ | .decRead _
  | .decWrite _ | .decRaw _ | .reservedF _ => false

/-- The operations that change no state at all (20_memory.md R33, 60_exceptions.md R127): CRC16, STRIP, PAYLOAD, the decoders. -/
def changesNoState : Instr → Bool
  | .crc16 _ | .strip _ | .payload _ | .decInventory _ | .decRead _ | .decWrite _ | .decRaw _ | .reservedF _ => true
  | .new _ | .write _ | .writeAll _ | .finalize | .parse _ | .encInventory | .encRead _ | .encWrite _ _ | .cmdInventory
  | .cmdRead _ | .cmdWrite _ _ => false

/-- Whether a move is one the host may make (R156): not two operations at once. -/
def HostMove.allowed : HostMove → Bool
  | .issue _ => true
  | .issueTwo _ _ => false
  | .reset => true

/-- The results on `RES` of the first `n` moves, oldest first, one for each operation issued (R155). -/
def results : Nat → State → List Res
  | 0, _ => []
  | n + 1, s =>
    match s.input, step s with
    | .issue _ :: _, .next s' => s'.res.toList ++ results n s'
    | _, .next s' => results n s'
    | _, _ => []

end Sys2Proof.Machine
end

