-- ==== Sys2Proof/Certificates/Slice0/Obligations.lean ====
section
/-! DEFINITION. The statements for the provers. An equation `exec i s = .next { s with … }` gives an operation's result, its completion and its frame at once: every field not named is unchanged. -/

open Sys2Proof Sys2Proof.Machine

/-! ## Encodings -/

/-- Words written out from R49 to R52 decode to the operation they stand for, whatever `ARG` carries.
Basis: the spec's own command-word layout D2 (log 16), the spec's D19 and, for the device commands as requests, the model's choice log 7. -/
def Obligations.WordsWrittenOutDecode : Prop :=
  ∀ arg : Arg,
    decode (.word 0b0000000000000000#16 arg) = .ok (.crc16 arg.seq0) ∧
    decode (.word 0b0001000011010110#16 arg) = .ok (.new 0xD6#8) ∧
    decode (.word 0b0010000000000111#16 arg) = .ok (.write 0x07#8) ∧
    decode (.word 0b0101000000000000#16 arg) = .ok (.payload .txf) ∧
    decode (.word 0b0101000100000000#16 arg) = .ok (.payload .rxf) ∧
    decode (.word 0b0111000000000000#16 arg) = .ok (.parse arg.record) ∧
    decode (.word 0b1010000000000000#16 arg) = .ok (.encWrite arg.seq0 arg.seq1) ∧
    decode (.word 0b1110000000000000#16 arg) = .ok (.decRaw arg.seq0) ∧
    decode (.word 0b0100000000000001#16 arg) = .error .strayImmediate ∧
    decode (.word 0b0001001000000000#16 arg) = .error .reservedField ∧
    decode (.word 0b0111000100000000#16 arg) = .error .straySelect ∧
    commandOf 0b11111110#8 = some .inventory ∧ decode (.command .inventory arg) = .ok .cmdInventory ∧
    commandOf 0b00000010#8 = some .read ∧ decode (.command .read arg) = .ok (.cmdRead arg.seq0) ∧
    commandOf 0b00000100#8 = some .write ∧ decode (.command .write arg) = .ok (.cmdWrite arg.seq0 arg.seq1)

/-- The whole second table of R49, one equation a row, with the field values the first table allows.
Basis: the spec's own command-word layout D2 (log 16). -/
def Obligations.LegalWordsSelectTheirOperation : Prop :=
  ∀ (arg : Arg) (imm : Byte) (low : BitVec 12),
    decode (.word 0x0000#16 arg) = .ok (.crc16 arg.seq0) ∧
    decode (.word (0x1000#16 + imm.setWidth 16) arg) = .ok (.new imm) ∧
    decode (.word (0x2000#16 + imm.setWidth 16) arg) = .ok (.write imm) ∧
    decode (.word 0x3000#16 arg) = .ok (.writeAll arg.seq0) ∧
    decode (.word 0x4000#16 arg) = .ok .finalize ∧
    decode (.word 0x5000#16 arg) = .ok (.payload .txf) ∧
    decode (.word 0x5100#16 arg) = .ok (.payload .rxf) ∧
    decode (.word 0x6000#16 arg) = .ok (.strip arg.seq0) ∧
    decode (.word 0x7000#16 arg) = .ok (.parse arg.record) ∧
    decode (.word 0x8000#16 arg) = .ok .encInventory ∧
    decode (.word 0x9000#16 arg) = .ok (.encRead arg.seq0) ∧
    decode (.word 0xA000#16 arg) = .ok (.encWrite arg.seq0 arg.seq1) ∧
    decode (.word 0xB000#16 arg) = .ok (.decInventory arg.seq0) ∧
    decode (.word 0xC000#16 arg) = .ok (.decRead arg.seq0) ∧
    decode (.word 0xD000#16 arg) = .ok (.decWrite arg.seq0) ∧
    decode (.word 0xE000#16 arg) = .ok (.decRaw arg.seq0) ∧
    decode (.word (0xF000#16 + low.setWidth 16) arg) = .ok (.reservedF low)

/-- Decoding the encoding of any instruction gives it back, every operand at every value.
Basis: the spec's own command-word layout D2 (log 16) and, for the device commands, the model's choice log 7. -/
def Obligations.DecodeOfEncodeIsTheInstruction : Prop :=
  ∀ i : Instr, decode (encode i) = .ok i

/-- A request that decodes has the word of its instruction's encoding, and a device command is that of its opcode byte and no
other: no two words decode to one instruction.
Basis: the spec's own command-word layout D2 (log 16), the spec's D19 and, for the device commands, the model's choice log 7. -/
def Obligations.DecodedWordIsTheEncodedWord : Prop :=
  (∀ (r : Request) (i : Instr), decode r = .ok i → (encode i).nbits = r.nbits ∧ (encode i).selector = r.selector) ∧
  ∀ (opcode : Byte) (c : DeviceCommand), commandOf opcode = some c ↔ opcode = c.opcode

/-- A device command is read back from its payload layout (R50 to R52), every fixed byte tested.
Basis: the payload reader is the model's own addition (log 7). -/
def Obligations.CommandPayloadReadsBack : Prop :=
  ∀ (i : Instr) (p : Bytes), i.wellFormed = true → commandPayload i = some p → commandOfPayload p = some i

/-- R53, R124: the words that select no operation, their fields taken as numbers.
Basis: the spec's own D19 (log 16). -/
def Obligations.WordsThatSelectNothing : Prop :=
  ∀ (s : State) (cw : Half) (arg : Arg) (rest : List HostMove),
    s.input = .issue (.word cw arg) :: rest →
    (cw.toNat / 4096 = 15 ∨ cw.toNat / 512 % 8 ≠ 0 ∨ (cw.toNat / 256 % 2 = 1 ∧ cw.toNat / 4096 ≠ 5) ∨
      (cw.toNat % 256 ≠ 0 ∧ cw.toNat / 4096 ≠ 1 ∧ cw.toNat / 4096 ≠ 2)) →
    step s = .next { s with input := rest, res := some (.err .notImplemented) }

/-- RESERVED_F (R53).
Basis: the spec's own D19 (log 16). -/
def Obligations.ReservedCodeIsNotImplemented : Prop :=
  ∀ (low : BitVec 12) (s : State), exec (.reservedF low) s = .next { s with res := some (.err .notImplemented) }

/-! ## The step -/

/-- A step runs the operation its next request decodes to; the request leaves `input` (log 1, log 8).
Basis: that pending moves stand in State is the model's choice, log 1 and log 8. -/
def Obligations.StepRunsTheDecodedOperation : Prop :=
  ∀ (s : State) (r : Request) (rest : List HostMove) (i : Instr),
    s.input = .issue r :: rest → decode r = .ok i → step s = exec i { s with input := rest }

/-- A request that decodes to nothing, which only a command word can be, is answered `Err(NotImplemented)`.
Basis: the spec's own D19 (log 16) and log 12. -/
def Obligations.StepAnswersAnUndecodedRequest : Prop :=
  ∀ (s : State) (r : Request) (rest : List HostMove) (j : Reject),
    s.input = .issue r :: rest → decode r = .error j →
    (∃ cw arg, r = .word cw arg) ∧ step s = .next { s with input := rest, res := some (.err .notImplemented) }

/-- Moves are taken one at a time, in order (R37); with none pending nothing changes (log 9).
Basis: the list of pending moves and the waiting step are the model's choices, log 1 and log 9. -/
def Obligations.MovesAreTakenInOrder : Prop :=
  ∀ s t : State, step s = .next t → t.input = s.input.tail ∧ (s.input = [] → t = s)

/-- R38: two operations at once get no step.
Basis: the spec's own D18 (log 10, log 16). -/
def Obligations.TwoOperationsAtOnceGetNoStep : Prop :=
  ∀ (s : State) (a b : Request) (rest : List HostMove),
    s.input = .issueTwo a b :: rest → step s = .refused .concurrentIssue

/-- R22: what reset leaves.
Basis: the spec's own D16 (log 16). -/
def Obligations.ResetLeavesNoFrame : Prop :=
  State.reset.txf = none ∧ State.reset.rxf = none

/-- The reset event discards both frames (R141); that nothing is driven on `RES` and that the host's later moves remain is
the model's choice, log 11.
Basis: the spec's own D16 (log 16). -/
def Obligations.ResetEventDiscardsBothFrames : Prop :=
  ∀ (s : State) (rest : List HostMove), s.input = .reset :: rest →
    step s = .next { txf := none, rxf := none, input := rest, res := none }

/-! ## The checksum -/

/-- R61: the bit step, and bit 0 of its result. -/
def Obligations.CrcBitStep : Prop :=
  ∀ (r : Half) (bit : Bool),
    crcBit r bit = (if r.getLsbD 15 ≠ bit then (r <<< 1) ^^^ 0x1021#16 else r <<< 1) ∧
    (crcBit r bit).getLsbD 0 = (r.getLsbD 15 ^^ bit)

/-- R60, R62, R65: CRC16 feeds every bit of `B` to the bit step, bytes in offset order and bit 7 first, from `0xFFFF`, with a
final exclusive or of `0xFFFF`; nothing else changes. -/
def Obligations.ChecksumIsBitSerial : Prop :=
  ∀ (b : Bytes) (s : State),
    (∀ arg : Arg, decode (.word 0x0000#16 { arg with seq0 := b }) = .ok (.crc16 b)) ∧
    exec (.crc16 b) s = .next { s with res := some (.ok (.half
      ((b.flatMap fun x => [x.getLsbD 7, x.getLsbD 6, x.getLsbD 5, x.getLsbD 4, x.getLsbD 3, x.getLsbD 2, x.getLsbD 1,
        x.getLsbD 0]).foldl crcBit 0xFFFF#16 ^^^ 0xFFFF#16))) }

/-- R63: the table form of the byte step.
Basis: a consequence that the spec marks as derived (its table form of the byte step). -/
def Obligations.ByteStepIsTheTableForm : Prop :=
  ∀ (r : Half) (b : Byte),
    crcByte r b = (r <<< 8) ^^^
      (fun x : Half => (x <<< 1) ^^^ (if x.getLsbD 15 then 0x1021#16 else 0#16))^[8]
        ((((r >>> 8).setWidth 8 ^^^ b).setWidth 16) <<< 8)

/-- R67: the residue law.
Basis: a consequence that the spec marks as derived (its residue law). -/
def Obligations.ChecksumResidue : Prop :=
  ∀ m : Bytes,
    (m ++ [hi8 (crc16 m), lo8 (crc16 m)]).foldl crcByte 0xFFFF#16 = 0x1D0F#16 ∧
    crc16 (m ++ [hi8 (crc16 m), lo8 (crc16 m)]) = 0xE2F0#16

/-! ## The builder -/

/-- R70. -/
def Obligations.NewStartsAnOpenFrame : Prop :=
  ∀ (start : Byte) (s : State),
    (∀ arg : Arg, decode (.word (0x1000#16 ||| start.setWidth 16) arg) = .ok (.new start)) ∧
    exec (.new start) s =
      .next { s with txf := some ⟨[start, 0x00#8, 0x00#8], false⟩, res := some (.ok .nothing) }

/-- R71.
Basis: the spec's own D4, D5, D6 (log 16). -/
def Obligations.WriteAppendsOneByte : Prop :=
  ∀ (b : Byte) (s : State),
    (∀ arg : Arg, decode (.word (0x2000#16 ||| b.setWidth 16) arg) = .ok (.write b)) ∧
    (s.txf = none → exec (.write b) s = .next { s with res := some (.err .noFrame) }) ∧
    (∀ buf, s.txf = some ⟨buf, true⟩ → exec (.write b) s = .next { s with res := some (.err .writeAfterFinal) }) ∧
    (∀ buf, s.txf = some ⟨buf, false⟩ → 254 ≤ buf.length →
      exec (.write b) s = .next { s with res := some (.err .overflow) }) ∧
    (∀ buf, s.txf = some ⟨buf, false⟩ → buf.length < 254 →
      exec (.write b) s = .next { s with txf := some ⟨buf ++ [b], false⟩, res := some (.ok .nothing) })

/-- R72: all or nothing.
Basis: the spec's own D4, D5, D6 (log 16). -/
def Obligations.WriteAllAppendsAllOrNothing : Prop :=
  ∀ (b : Bytes) (s : State),
    (∀ arg : Arg, decode (.word 0x3000#16 { arg with seq0 := b }) = .ok (.writeAll b)) ∧
    (s.txf = none → exec (.writeAll b) s = .next { s with res := some (.err .noFrame) }) ∧
    (∀ buf, s.txf = some ⟨buf, true⟩ → exec (.writeAll b) s = .next { s with res := some (.err .writeAfterFinal) }) ∧
    (∀ buf, s.txf = some ⟨buf, false⟩ → 254 < buf.length + b.length →
      exec (.writeAll b) s = .next { s with res := some (.err .overflow) }) ∧
    (∀ buf, s.txf = some ⟨buf, false⟩ → buf.length + b.length ≤ 254 →
      exec (.writeAll b) s = .next { s with txf := some ⟨buf ++ b, false⟩, res := some (.ok .nothing) })

/-- R59, R72: where nothing is raised, WRITE_ALL of some bytes is WRITE of each in turn.
Basis: the spec's own D4 for what fits (log 16). -/
def Obligations.WriteAllIsSuccessiveWrites : Prop :=
  ∀ (b : Bytes) (s : State) (buf : Bytes), s.txf = some ⟨buf, false⟩ → buf.length + b.length ≤ 254 → b ≠ [] →
    execAll (b.map .write) s = exec (.writeAll b) s

/-- R73: the layout FINALIZE makes of an open frame with start byte `start` and payload `p`; the two cases in which it builds
nothing.
Basis: the spec's own D6 for the empty slot (log 16). -/
def Obligations.FinalizeMakesTheWireFrame : Prop :=
  ∀ s : State,
    (∀ arg : Arg, decode (.word 0x4000#16 arg) = .ok .finalize) ∧
    (s.txf = none → exec .finalize s = .next { s with res := some (.err .noFrame) }) ∧
    (∀ buf, s.txf = some ⟨buf, true⟩ → exec .finalize s = .next { s with res := some (.ok (.bytes buf)) }) ∧
    (∀ start h l p, s.txf = some ⟨start :: h :: l :: p, false⟩ → p.length ≤ 251 →
      let length : Half := BitVec.ofNat 16 (2 + p.length)
      let c := crc16 ([hi8 length, lo8 length] ++ p)
      let f := [start, hi8 length, lo8 length] ++ p ++ [hi8 c, lo8 c]
      exec .finalize s = .next { s with txf := some ⟨f, true⟩, res := some (.ok (.bytes f)) })

/-- R75. -/
def Obligations.FinalizeIsIdempotent : Prop :=
  ∀ s t : State, s.txf ≠ none → exec .finalize s = .next t → exec .finalize t = .next t

/-- Where the model stops: an open frame outside R73's bound (the model's reading of R77, log 5).
Basis: the model's choice, log 5. -/
def Obligations.FinalizeStopsOutsideItsBound : Prop :=
  ∀ (s : State) (buf : Bytes), s.txf = some ⟨buf, false⟩ → buf.length < 3 ∨ 254 < buf.length →
    exec .finalize s = .fault .openFrameOutOfBounds

/-- R74, R80: PAYLOAD of either slot.
Basis: the spec's own D6 and D21 (log 16). -/
def Obligations.PayloadIsThePayloadRegion : Prop :=
  ∀ (sel : Slot) (s : State),
    (∀ arg : Arg, decode (.word 0x5000#16 arg) = .ok (.payload .txf) ∧ decode (.word 0x5100#16 arg) = .ok (.payload .rxf)) ∧
    let held := match sel with
      | .txf => s.txf
      | .rxf => s.rxf
    (held = none → exec (.payload sel) s = .next { s with res := some (.err .noFrame) }) ∧
    (∀ buf, held = some ⟨buf, false⟩ → buf.length ≤ 3 →
      exec (.payload sel) s = .next { s with res := some (.ok (.optBytes none)) }) ∧
    (∀ header p, held = some ⟨header ++ p, false⟩ → header.length = 3 → p ≠ [] →
      exec (.payload sel) s = .next { s with res := some (.ok (.optBytes (some p))) }) ∧
    (∀ buf, held = some ⟨buf, true⟩ → buf.length ≤ 5 →
      exec (.payload sel) s = .next { s with res := some (.ok (.optBytes none)) }) ∧
    (∀ header p tail, held = some ⟨header ++ p ++ tail, true⟩ → header.length = 3 → tail.length = 2 → p ≠ [] →
      exec (.payload sel) s = .next { s with res := some (.ok (.optBytes (some p))) })

/-- R76, over all operations (the device commands start a frame as the encoders do: log 7).
Basis: the spec's own D5 (log 16) and, for the device commands, the model's choice log 7. -/
def Obligations.FinalizedFrameIsImmutable : Prop :=
  ∀ (i : Instr) (s t : State) (buf : Bytes), s.txf = some ⟨buf, true⟩ → startsFrame i = false → exec i s = .next t →
    t.txf = some ⟨buf, true⟩ ∧
    (∀ b, i = .write b → t.res = some (.err .writeAfterFinal)) ∧
    (∀ b, i = .writeAll b → t.res = some (.err .writeAfterFinal)) ∧
    (i = .finalize → t.res = some (.ok (.bytes buf)))

/-- R14, first point: no operation but one that starts a frame changes a frame's start byte, or loses the frame.
Basis: an invariant that the spec marks as derived and, for the device commands, the model's choice log 7. -/
def Obligations.StartByteNeverChanges : Prop :=
  ∀ (i : Instr) (s t : State) (f : Frame), s.txf = some f → 3 ≤ f.buf.length → startsFrame i = false →
    exec i s = .next t → ∃ g, t.txf = some g ∧ byteAt g.buf 0 = byteAt f.buf 0

/-- R83: the table of the builder's errors.
Basis: the spec's own D4, D5, D6 (log 16). -/
def Obligations.BuilderErrorTable : Prop :=
  ∀ s : State, s.Inv →
    (∀ start k, ¬ Raises (.new start) s k) ∧
    (∀ b, (Raises (.write b) s .noFrame ↔ s.txf = none) ∧
      (Raises (.write b) s .writeAfterFinal ↔ ∃ buf, s.txf = some ⟨buf, true⟩) ∧
      (Raises (.write b) s .overflow ↔ ∃ buf, s.txf = some ⟨buf, false⟩ ∧ buf.length = 254)) ∧
    (∀ b, (Raises (.writeAll b) s .noFrame ↔ s.txf = none) ∧
      (Raises (.writeAll b) s .writeAfterFinal ↔ ∃ buf, s.txf = some ⟨buf, true⟩) ∧
      (Raises (.writeAll b) s .overflow ↔ ∃ buf, s.txf = some ⟨buf, false⟩ ∧ 254 < buf.length + b.length)) ∧
    (∀ k, Raises .finalize s k ↔ k = .noFrame ∧ s.txf = none) ∧
    (∀ k, Raises (.payload .txf) s k ↔ k = .noFrame ∧ s.txf = none) ∧
    (∀ k, Raises (.payload .rxf) s k ↔ k = .noFrame ∧ s.rxf = none)

/-- R82: the round-trip law with its side condition, and its failure without it; R93's derived clause (`len_ok` is true).
Basis: laws that the spec marks as derived (its round trip, its length check). -/
def Obligations.BuildThenParseRoundTrip : Prop :=
  ∀ (s : State) (start : Byte) (p : Bytes), p.length ≤ 251 →
    ∃ f s₁, execAll [.new start, .writeAll p, .finalize] s = .next s₁ ∧
      s₁.txf = some ⟨f, true⟩ ∧ s₁.res = some (.ok (.bytes f)) ∧
      (byteAt f (f.length - 1) ≠ 0#8 → ∃ s₂,
        exec (.parse (pad f)) s₁ = .next s₂ ∧ s₂.rxf = some ⟨f, true⟩ ∧
        s₂.res = some (.ok (.frame f (classOf start) true)) ∧
        exec (.payload .rxf) s₂ =
          .next { s₂ with res := some (.ok (.optBytes (if p = [] then none else some p))) }) ∧
      (byteAt f (f.length - 1) = 0#8 → ∀ s₂, exec (.parse (pad f)) s₁ = .next s₂ → s₂.rxf ≠ some ⟨f, true⟩)

/-! ## The parser -/

/-- R85. -/
def Obligations.StripFindsTheLogicalLength : Prop :=
  ∀ (b : Bytes) (s : State),
    (∀ arg : Arg, decode (.word 0x6000#16 { arg with seq0 := b }) = .ok (.strip b)) ∧
    ∃ n, exec (.strip b) s = .next { s with res := some (.ok (.length n)) } ∧ n ≤ b.length ∧
      (n = 0 ∨ byteAt b (n - 1) ≠ 0#8) ∧ (∀ k, n ≤ k → k < b.length → byteAt b k = 0#8) ∧ strip (b.take n) = n

/-- R86, R88, R89, R90: every outcome of PARSE, with `n` the logical length of R85.
Basis: the spec's own D7, D9, D10, D25 (log 16). -/
def Obligations.ParseOutcomes : Prop :=
  ∀ (record : Record) (s : State),
    (∀ arg : Arg, decode (.word 0x7000#16 { arg with record := record }) = .ok (.parse record)) ∧
    let b := record.toList
    let n := strip b
    let declared := be16 (byteAt b (n - 2)) (byteAt b (n - 1))
    let computed := crc16 (slice b 1 (n - 2))
    (n < 3 → exec (.parse record) s = .next { s with rxf := none, res := some (.err .shortRecord) }) ∧
    (3 ≤ n → computed ≠ declared →
      exec (.parse record) s = .next { s with rxf := none, res := some (.err .wrongChecksum) }) ∧
    (3 ≤ n → computed = declared →
      exec (.parse record) s = .next { s with
        rxf := some ⟨b.take n, true⟩,
        res := some (.ok (.frame (b.take n) (classOf (byteAt b 0))
          (decide ((be16 (byteAt b 1) (byteAt b 2)).toNat + 3 = n)))) })

/-- R91: records of three and four logical bytes.
Basis: a consequence that the spec marks as derived and the spec's own D21 (log 16). -/
def Obligations.ShortestRecords : Prop :=
  ∀ (record : Record) (s : State),
    let b := record.toList
    (strip b = 3 → exec (.parse record) s = .next { s with rxf := none, res := some (.err .wrongChecksum) }) ∧
    (strip b = 4 → be16 (byteAt b 2) (byteAt b 3) ≠ crc16 [byteAt b 1] →
      exec (.parse record) s = .next { s with rxf := none, res := some (.err .wrongChecksum) }) ∧
    (strip b = 4 → be16 (byteAt b 2) (byteAt b 3) = crc16 [byteAt b 1] → ∃ t,
      exec (.parse record) s = .next t ∧ t.rxf = some ⟨b.take 4, true⟩ ∧ t.txf = s.txf ∧
      t.res = some (.ok (.frame (b.take 4) (classOf (byteAt b 0)) (decide (be16 (byteAt b 1) (byteAt b 2) = 1#16)))) ∧
      exec (.payload .rxf) t = .next { t with res := some (.ok (.optBytes none)) })

/-- R92, R41: the start-byte validator, on two distinct class bytes.
Basis: the spec's own D8 and D9 (log 3, log 16). -/
def Obligations.StartByteClasses : Prop :=
  Config.startSetup ≠ Config.startData ∧ classOf Config.startSetup = .setup ∧ classOf Config.startData = .data ∧
    ∀ b, b ≠ Config.startSetup → b ≠ Config.startData → classOf b = .other

/-- R54, R92, R94: whether and how PARSE fails does not depend on the start byte.
Basis: the spec's own D9 (log 16). -/
def Obligations.StartByteGatesNothing : Prop :=
  ∀ (record : Record) (b : Byte) (s : State) (k : ErrKind),
    Raises (.parse (record.set 0 b)) s k ↔ Raises (.parse record) s k

/-- R95: the altered-checksum law, with its side condition.
Basis: a law that the spec marks as derived. -/
def Obligations.AlteredChecksumIsWrong : Prop :=
  ∀ (s : State) (f : Frame) (x y : Byte), f.final = true → f.BuiltOk → byteAt f.buf (f.buf.length - 1) ≠ 0#8 →
    [x, y] ≠ f.buf.drop (f.buf.length - 2) → y ≠ 0#8 →
    exec (.parse (pad (f.buf.take (f.buf.length - 2) ++ [x, y]))) s =
      .next { s with rxf := none, res := some (.err .wrongChecksum) }

/-- R98, R99: PARSE is a function of the record alone, and leaves `TXF` as it is.
Basis: a law that the spec marks in part as derived. -/
def Obligations.ParseIsAFunctionOfTheRecord : Prop :=
  ∀ record : Record, ∃ rxf res, ∀ s : State,
    exec (.parse record) s = .next { s with rxf := rxf, res := some res }

/-! ## The encoders -/

/-- R100. -/
def Obligations.InventoryCommandFrame : Prop :=
  ∀ s : State,
    (∀ arg : Arg, decode (.word 0x8000#16 arg) = .ok .encInventory) ∧
    let f : Bytes := [Config.startData, 0x00#8, 0x05#8, 0xFE#8, 0x00#8, 0x07#8, 0xDA#8, 0x02#8]
    exec .encInventory s = .next { s with txf := some ⟨f, true⟩, res := some (.ok (.bytes f)) }

/-- R101, R51.
Basis: the spec's own D11 and D24 (log 16). -/
def Obligations.ReadCommandFrame : Prop :=
  ∀ (id : Bytes) (s : State),
    (∀ arg : Arg, decode (.word 0x9000#16 { arg with seq0 := id }) = .ok (.encRead id)) ∧
    (id.length ≠ 8 → exec (.encRead id) s = .next { s with res := some (.err .wrongCardId) }) ∧
    (id.length = 8 →
      let covered : Bytes := [0x00#8, 0x0E#8, 0x02#8] ++ id ++ [0x00#8, 0x09#8, 0x0C#8]
      let f := [Config.startData] ++ covered ++ [hi8 (crc16 covered), lo8 (crc16 covered)]
      f.length = 17 ∧
      exec (.encRead id) s = .next { s with txf := some ⟨f, true⟩, res := some (.ok (.bytes f)) })

/-- R102, R52.
Basis: the spec's own D11, D23, D24 (log 16). -/
def Obligations.WriteCommandFrame : Prop :=
  ∀ (id data : Bytes) (s : State),
    (∀ arg : Arg, decode (.word 0xA000#16 { arg with seq0 := id, seq1 := data }) = .ok (.encWrite id data)) ∧
    (id.length ≠ 8 → exec (.encWrite id data) s = .next { s with res := some (.err .wrongCardId) }) ∧
    (id.length = 8 → 231 < data.length → exec (.encWrite id data) s = .next { s with res := some (.err .overflow) }) ∧
    (id.length = 8 → data.length ≤ 231 →
      let covered : Bytes := [0x00#8, BitVec.ofNat 8 (22 + data.length), 0x04#8] ++ id ++ [0x00#8, 0x09#8, 0x00#8] ++ data ++ zeros 8
      let f := [Config.startData] ++ covered ++ [hi8 (crc16 covered), lo8 (crc16 covered)]
      f.length = 25 + data.length ∧
      exec (.encWrite id data) s = .next { s with txf := some ⟨f, true⟩, res := some (.ok (.bytes f)) })

/-- R104: an encoder's frame does not depend on what `TXF` held; FINALIZE returns it again and PAYLOAD(TXF) its payload.
Basis: a consequence that the spec marks as derived, and its D11 and D23 (log 16). -/
def Obligations.EncodedFrameReadsBack : Prop :=
  ∀ (i : Instr) (p : Bytes),
    (i = .encInventory ∧ p = [0xFE#8, 0x00#8, 0x07#8]) ∨
    (∃ id, id.length = 8 ∧ i = .encRead id ∧ p = [0x02#8] ++ id ++ [0x00#8, 0x09#8, 0x0C#8]) ∨
    (∃ id data, id.length = 8 ∧ data.length ≤ 231 ∧ i = .encWrite id data ∧
      p = [0x04#8] ++ id ++ [0x00#8, 0x09#8, 0x00#8] ++ data ++ zeros 8) →
    ∃ f, ∀ s : State, ∃ t, t = { s with txf := some ⟨f, true⟩, res := some (.ok (.bytes f)) } ∧
      exec i s = .next t ∧ exec .finalize t = .next t ∧
      exec (.payload .txf) t = .next { t with res := some (.ok (.optBytes (some p))) }

/-- The device command rows, run as the model runs them (the model's choice, log 7): the layouts R50 to R52 in a finalized
frame, and the two errors of R103 and R102. -/
def Obligations.DeviceCommandFrames : Prop :=
  ∀ (id data : Bytes) (s : State),
    (let f : Bytes := [Config.startData, 0x00#8, 0x05#8, 0xFE#8, 0x00#8, 0x07#8, 0xDA#8, 0x02#8]
     exec .cmdInventory s = .next { s with txf := some ⟨f, true⟩, res := some (.ok (.bytes f)) }) ∧
    (id.length ≠ 8 → exec (.cmdRead id) s = .next { s with res := some (.err .wrongCardId) } ∧
      exec (.cmdWrite id data) s = .next { s with res := some (.err .wrongCardId) }) ∧
    (id.length = 8 → 231 < data.length → exec (.cmdWrite id data) s = .next { s with res := some (.err .overflow) }) ∧
    (id.length = 8 →
      let covered : Bytes := [0x00#8, 0x0E#8, 0x02#8] ++ id ++ [0x00#8, 0x09#8, 0x0C#8]
      let f := [Config.startData] ++ covered ++ [hi8 (crc16 covered), lo8 (crc16 covered)]
      exec (.cmdRead id) s = .next { s with txf := some ⟨f, true⟩, res := some (.ok (.bytes f)) }) ∧
    (id.length = 8 → data.length ≤ 231 →
      let covered : Bytes := [0x00#8, BitVec.ofNat 8 (22 + data.length), 0x04#8] ++ id ++ [0x00#8, 0x09#8, 0x00#8] ++ data ++ zeros 8
      let f := [Config.startData] ++ covered ++ [hi8 (crc16 covered), lo8 (crc16 covered)]
      exec (.cmdWrite id data) s = .next { s with txf := some ⟨f, true⟩, res := some (.ok (.bytes f)) })

/-- The encoders' expansions into builder operations (R59) and the layouts (R50 to R52) are one and the same.
Basis: the device commands being run as the model runs them (log 7). -/
def Obligations.EncodersMeetTheLayouts : Prop :=
  ∀ (s : State) (id data : Bytes),
    exec .encInventory s = exec .cmdInventory s ∧ exec (.encRead id) s = exec (.cmdRead id) s ∧
      exec (.encWrite id data) s = exec (.cmdWrite id data) s

/-! ## The decoders -/

/-- R110.
Basis: the spec's own D13 (log 16). -/
def Obligations.InventoryResponse : Prop :=
  ∀ (r : Bytes) (s : State),
    (∀ arg : Arg, decode (.word 0xB000#16 { arg with seq0 := r }) = .ok (.decInventory r)) ∧
    let count := (byteAt r 4).toNat
    (r.length < 5 → exec (.decInventory r) s = .next { s with res := some (.err .wrongResponse) }) ∧
    (5 ≤ r.length → count = 0 → exec (.decInventory r) s = .next { s with res := some (.err .noCard) }) ∧
    (5 ≤ r.length → count ≠ 0 → r.length < 6 + 9 * count →
      exec (.decInventory r) s = .next { s with res := some (.err .wrongResponse) }) ∧
    (count ≠ 0 → 6 + 9 * count ≤ r.length →
      exec (.decInventory r) s = .next { s with
        res := some (.ok (.ids ((List.range count).map fun i => slice r (6 + 9 * i) (6 + 9 * i + 8)))) })

/-- R110, R113: a successful inventory has `count` identifiers of 8 bytes, at most 27 from a response of at most 251 bytes.
Basis: a consequence that the spec marks as derived, and its D13 (log 16). -/
def Obligations.InventoryIdentifiers : Prop :=
  ∀ (r : Bytes) (s t : State) (ids : List Bytes), exec (.decInventory r) s = .next t → t.res = some (.ok (.ids ids)) →
    ids.length = (byteAt r 4).toNat ∧ (∀ id ∈ ids, id.length = 8) ∧ (r.length ≤ 251 → ids.length ≤ 27)

/-- R111.
Basis: the spec's own D14 (log 16). -/
def Obligations.ReadResponse : Prop :=
  ∀ (r : Bytes) (s : State),
    (∀ arg : Arg, decode (.word 0xC000#16 { arg with seq0 := r }) = .ok (.decRead r)) ∧
    let e : Int := (strip r : Int) - 2
    (r.length < 3 → exec (.decRead r) s = .next { s with res := some (.err .wrongResponse) }) ∧
    (3 ≤ r.length → byteAt r 1 ≠ 0#8 → exec (.decRead r) s = .next { s with res := some (.err .noCard) }) ∧
    (3 ≤ r.length → byteAt r 1 = 0#8 → e ≤ 12 → exec (.decRead r) s = .next { s with res := some (.ok (.bytes [])) }) ∧
    (3 ≤ r.length → byteAt r 1 = 0#8 → 12 < e →
      exec (.decRead r) s = .next { s with res := some (.ok (.bytes (slice r 12 e.toNat))) })

/-- R114, R118: a response of twelve header bytes, data, a two-byte remnant that does not end in zero, and padding decodes
to the data. -/
def Obligations.ReadResponseYieldsTheData : Prop :=
  ∀ (header data : Bytes) (x y : Byte) (k : Nat) (s : State),
    header.length = 12 → byteAt header 1 = 0#8 → y ≠ 0#8 →
    exec (.decRead (header ++ data ++ [x, y] ++ zeros k)) s = .next { s with res := some (.ok (.bytes data)) }

/-- R112.
Basis: the spec's own D12 (log 16). -/
def Obligations.WriteResponse : Prop :=
  ∀ (r : Bytes) (s : State),
    (∀ arg : Arg, decode (.word 0xD000#16 { arg with seq0 := r }) = .ok (.decWrite r)) ∧
    (r.length < 2 → exec (.decWrite r) s = .next { s with res := some (.err .wrongResponse) }) ∧
    (2 ≤ r.length → byteAt r 1 ≠ 0#8 → exec (.decWrite r) s = .next { s with res := some (.err .noCard) }) ∧
    (2 ≤ r.length → byteAt r 1 = 0#8 → exec (.decWrite r) s = .next { s with res := some (.ok .nothing) })

/-- R55, R115: the custom command path. DEC_RAW returns its operand untested; a device command of any opcode, on any start
byte, is built by the operations the host issues for it and its frame comes back finalized, its payload the opcode and the
operands; of a reply that passes PARSE, PAYLOAD and DEC_RAW give the raw payload, whatever it is.
Basis: the spec's own D2 and D4 (log 16) and the model's list of moves (log 1). -/
def Obligations.CustomCommandPath : Prop :=
  (∀ (r : Bytes) (s : State),
    (∀ arg : Arg, decode (.word 0xE000#16 { arg with seq0 := r }) = .ok (.decRaw r)) ∧
    exec (.decRaw r) s = .next { s with res := some (.ok (.bytes r)) }) ∧
  (∀ (start opcode : Byte) (operands : Bytes) (s : State), operands.length ≤ 250 →
    let covered : Bytes := [0x00#8, BitVec.ofNat 8 (3 + operands.length), opcode] ++ operands
    let f := [start] ++ covered ++ [hi8 (crc16 covered), lo8 (crc16 covered)]
    let t : State := { s with txf := some ⟨f, true⟩, res := some (.ok (.bytes f)) }
    core.run 4 { s with input := issueAll (customCommandOperations start opcode operands) ++ s.input } = .next t ∧
    exec (.payload .txf) t = .next { t with res := some (.ok (.optBytes (some (opcode :: operands)))) }) ∧
  (∀ (record : Record) (s t : State) (f : Frame), exec (.parse record) s = .next t → t.rxf = some f → 5 < f.buf.length →
    let r := slice f.buf 3 (f.buf.length - 2)
    exec (.payload .rxf) t = .next { t with res := some (.ok (.optBytes (some r))) } ∧
    exec (.decRaw r) t = .next { t with res := some (.ok (.bytes r)) })

/-- R35, R56, R110 to R112: the inventory decoder tests offset 4 and reads the identifiers only, the read decoder tests
offset 1 and reads the offsets from 12 only, the write decoder tests offset 1 only. -/
def Obligations.DecodersIgnoreUnusedBytes : Prop :=
  ∀ (a b : Bytes) (s : State), a.length = b.length →
    (byteAt a 4 = byteAt b 4 →
      (∀ i k, i < (byteAt a 4).toNat → k < 8 → byteAt a (6 + 9 * i + k) = byteAt b (6 + 9 * i + k)) →
      exec (.decInventory a) s = exec (.decInventory b) s) ∧
    (byteAt a 1 = byteAt b 1 → (∀ k, 12 ≤ k → byteAt a k = byteAt b k) → exec (.decRead a) s = exec (.decRead b) s) ∧
    (byteAt a 1 = byteAt b 1 → exec (.decWrite a) s = exec (.decWrite b) s)

/-! ## All operations -/

/-- R127, over all operations.
Basis: the spec's own D4, D24, D25 (log 16). -/
def Obligations.AnErrorLeavesTheSlots : Prop :=
  ∀ (i : Instr) (s t : State) (k : ErrKind), exec i s = .next t → t.res = some (.err k) →
    ((∀ record, i ≠ .parse record) ∧ t = { s with res := some (.err k) }) ∨
      ((∃ record, i = .parse record) ∧ t = { s with rxf := none, res := some (.err k) })

/-- R116, R65: what CRC16, STRIP and the decoders answer depends on their operand alone.
Basis: laws that the spec marks in part as derived. -/
def Obligations.DecodersReadNoState : Prop :=
  ∀ (i : Instr) (s t : State), changesNoState i = true → (∀ sel, i ≠ .payload sel) →
    ∃ r, exec i s = .next { s with res := some r } ∧ exec i t = .next { t with res := some r }

/-- R123: an operation raises the kinds of its row only.
Basis: a table that the spec marks as derived and, for the device commands, the model's choice log 7. -/
def Obligations.OperationsRaiseTheirKindsOnly : Prop :=
  ∀ (i : Instr) (s : State) (k : ErrKind), Raises i s k → k ∈ raisable i

/-- R121, R132, R134, U16: the codes of the kinds; the block never drives 1, 4 or 12 to 15.
Basis: the spec's own D15 (log 16). -/
def Obligations.StatusCodes : Prop :=
  [ErrKind.transportError, .wrongChecksum, .wrongResponse, .emptyResponse, .wrongCardId, .noCard, .notImplemented,
    .noFrame, .writeAfterFinal, .overflow, .shortRecord].map ErrKind.code = [1, 2, 3, 4, 5, 6, 7, 8, 9, 10, 11] ∧
  ∀ (i : Instr) (s t : State) (r : Res), exec i s = .next t → t.res = some r →
    r.status ≠ 1#4 ∧ r.status ≠ 4#4 ∧ r.status < 12#4

/-- R120, R142: from every state that meets the invariants, every operation ends with a result.
Basis: the invariants, which the spec marks as derived. -/
def Obligations.EveryOperationAnswers : Prop :=
  ∀ (i : Instr) (s : State), s.Inv → ∃ t r, exec i s = .next t ∧ t.res = some r ∧ t.input = s.input

/-- R14, R15: every step keeps the invariants of both slots.
Basis: the invariants, which the spec marks as derived. -/
def Obligations.StepKeepsTheInvariants : Prop :=
  ∀ s t : State, s.Inv → step s = .next t → t.Inv

/-- Reset meets the invariants.
Basis: the invariants, which the spec marks as derived. -/
def Obligations.ResetMeetsTheInvariants : Prop := State.reset.Inv

/-- From a state that meets the invariants no run faults (R77, log 5).
Basis: the model's choice, log 5. -/
def Obligations.RunsNeverFault : Prop :=
  ∀ (s : State) (n : Nat) (r : Fault), s.Inv → core.run n s ≠ .fault r

/-- R155: from such a state, if the host never issues two at once, a run of one step a move ends with no move pending, and
stays there; it has one result for each operation issued.
Basis: the model's list of moves and its waiting step, log 1 and log 9. -/
def Obligations.RunsEnd : Prop :=
  ∀ s : State, s.Inv → (∀ m ∈ s.input, m.allowed = true) →
    ∃ t, core.run s.input.length s = .next t ∧ t.input = [] ∧ step t = .next t ∧
      (results s.input.length s).length = (s.input.filter fun m => m != .reset).length

/-! ## The host's contract -/

/-- R131, R132, R133: `perform` transmits the command; its errors in their order; what it returns.
Basis: the session and its transport as modelled by the model's choice, log 13, and the wait left out, log 17. -/
def Obligations.PerformSequence : Prop :=
  ∀ (x : Exchange) (command : Bytes) (h : Session),
    (perform x command h).1.sent = h.sent ++ [command] ∧
    (∀ e, x.transmitFailure = some e → perform x command h = ({ h with sent := h.sent ++ [command] }, .error (.transport e))) ∧
    (x.transmitFailure = none →
      (∀ e, x.reception = .failed e →
        perform x command h = ({ h with sent := h.sent ++ [command] }, .error (.transport e))) ∧
      (∀ record, x.reception = .got 0 record →
        perform x command h = ({ h with sent := h.sent ++ [command] }, .error (.kind .emptyResponse))) ∧
      (∀ count record k, x.reception = .got count record → count ≠ 0 → Raises (.parse record) h.block k →
        (perform x command h).2 = .error (.kind k) ∧ (perform x command h).1.block.rxf = none) ∧
      (∀ count record t f, x.reception = .got count record → count ≠ 0 →
        exec (.parse record) h.block = .next t → t.rxf = some f →
        (perform x command h).1.block.rxf = some f ∧
        (f.buf.length ≤ 5 → (perform x command h).2 = .error (.kind .wrongResponse)) ∧
        (5 < f.buf.length → (perform x command h).2 = .ok (slice f.buf 3 (f.buf.length - 2)))))

/-- R103: with an identifier that is not 8 bytes long nothing is transmitted and the block's slots stay as they are.
Basis: the spec's own D24 (log 16) and the model's session, log 13. -/
def Obligations.WrongCardIdBeforeAnyTransmit : Prop :=
  ∀ (id data : Bytes) (x : Exchange) (h : Session), id.length ≠ 8 →
    readCard id x h = ({ h with block := { h.block with res := some (.err .wrongCardId) } }, .error (.kind .wrongCardId)) ∧
    writeCard id data x h =
      ({ h with block := { h.block with res := some (.err .wrongCardId) } }, .error (.kind .wrongCardId))
end

