-- ==== Sys2Proof/Laws/Bytes.lean ====
section
/-! SUPPORT. Laws of byte order, slices, byte-space accesses and records. -/

namespace Sys2Proof.Machine

@[simp] theorem be16_hi8_lo8 (v : Half) : be16 (hi8 v) (lo8 v) = v := by
  simp only [be16, hi8, lo8]
  ext i hi
  simp only [BitVec.getElem_append, BitVec.getElem_extractLsb']
  split
  · simp [← BitVec.getLsbD_eq_getElem]
  · rename_i h
    rw [show 8 + (i - 8) = i by omega, BitVec.getLsbD_eq_getElem]

theorem be16_toNat (h l : Byte) : (be16 h l).toNat = 256 * h.toNat + l.toNat := by
  simp only [be16, BitVec.toNat_append]
  rw [← Nat.shiftLeft_add_eq_or_of_lt l.isLt, Nat.shiftLeft_eq]
  omega

@[simp] theorem bigEndian_length (v : Half) : (bigEndian v).length = 2 := rfl

theorem slice_length (b : Bytes) (i j : Nat) : (slice b i j).length = min (j - i) (b.length - i) := by
  simp [slice]

@[simp] theorem slice_zero_length (b : Bytes) : slice b 0 b.length = b := by simp [slice]

theorem slice_append_right (a b : Bytes) (j : Nat) : slice (a ++ b) a.length j = b.take (j - a.length) := by
  simp [slice]

@[simp] theorem byteAt_cons_zero (x : Byte) (b : Bytes) : byteAt (x :: b) 0 = x := rfl
@[simp] theorem byteAt_cons_succ (x : Byte) (b : Bytes) (i : Nat) : byteAt (x :: b) (i + 1) = byteAt b i := rfl

theorem byteAt_append_left {a b : Bytes} {i : Nat} (h : i < a.length) : byteAt (a ++ b) i = byteAt a i := by
  simp [byteAt, List.getElem?_append_left h]

theorem byteAt_append_right {a b : Bytes} {i : Nat} (h : a.length ≤ i) :
    byteAt (a ++ b) i = byteAt b (i - a.length) := by
  simp [byteAt, List.getElem?_append_right h]

theorem byteAt_of_length_le {b : Bytes} {i : Nat} (h : b.length ≤ i) : byteAt b i = 0#8 := by
  simp [byteAt, List.getElem?_eq_none h]

theorem byteAt_slice (b : Bytes) (i j k : Nat) (h : k < j - i) : byteAt (slice b i j) k = byteAt b (i + k) := by
  simp [byteAt, slice, List.getElem?_take_of_lt h]

theorem memWrite_length {b : Bytes} {addr : Nat} {v : Bytes} (h : addr + v.length ≤ b.length) :
    (memWrite b addr v).length = b.length := by
  simp [memWrite]; omega

/-- A read of what was written gives what was written (R8). -/
theorem memRead_memWrite_same {b : Bytes} {addr : Nat} {v : Bytes} (h : addr ≤ b.length) :
    memRead (memWrite b addr v) addr v.length = v := by
  have e : (b.take addr).length = addr := by simp [h]
  simp only [memRead, memWrite, slice, List.append_assoc]
  rw [List.drop_append_of_le_length (by omega), List.drop_of_length_le (by omega)]
  simp

/-- A write leaves every other offset alone (R8). -/
theorem byteAt_memWrite_other {b : Bytes} {addr i : Nat} {v : Bytes} (h : addr ≤ b.length)
    (ne : i < addr ∨ addr + v.length ≤ i) : byteAt (memWrite b addr v) i = byteAt b i := by
  have e : (b.take addr).length = addr := by simp [h]
  rcases ne with lt | le
  · rw [memWrite, List.append_assoc, byteAt_append_left (by omega)]
    simp [byteAt, List.getElem?_take_of_lt lt]
  · rw [memWrite, byteAt_append_right (by rw [List.length_append]; omega)]
    simp only [byteAt, List.getD_eq_getElem?_getD, List.getElem?_drop, List.length_append, e]
    congr 2
    omega

@[simp] theorem pad_toList (f : Bytes) : (pad f).toList = (f ++ zeros 256).take 256 := rfl

/-- The record of a frame that fits is the frame and zeros (R143). -/
theorem pad_toList_of_le {f : Bytes} (h : f.length ≤ 256) : (pad f).toList = f ++ zeros (256 - f.length) := by
  rw [pad_toList, List.take_append, List.take_of_length_le h]
  congr 1
  simp only [zeros, List.take_replicate]
  congr 1
  omega

end Sys2Proof.Machine
end

