-- ==== Sys2Proof/Laws/Builder.lean ====
section
/-! SUPPORT. Laws of the builder's operations on a frame (41_frame_builder.md): what each can do, the layout FINALIZE makes, and that each keeps the invariant R14. -/

namespace Sys2Proof.Machine

/-- Everything WRITE on a slot can do (R71, R83). -/
theorem writeByte_cases (slot : Option Frame) (b : Byte) :
    (slot = none ∧ writeByte slot b = .error .noFrame) ∨
    (∃ f, slot = some f ∧ f.final = true ∧ writeByte slot b = .error .writeAfterFinal) ∨
    (∃ f, slot = some f ∧ f.final = false ∧ 254 ≤ f.buf.length ∧ writeByte slot b = .error .overflow) ∨
    (∃ f, slot = some f ∧ f.final = false ∧ f.buf.length < 254 ∧ writeByte slot b = .ok ⟨f.buf ++ [b], false⟩) := by
  rcases slot with _ | ⟨buf, _ | _⟩
  · exact .inl ⟨rfl, rfl⟩
  · by_cases h : 254 ≤ buf.length
    · exact .inr (.inr (.inl ⟨_, rfl, rfl, h, by simp [writeByte, h]⟩))
    · exact .inr (.inr (.inr ⟨_, rfl, rfl, by simpa using h, by simp [writeByte, h]⟩))
  · exact .inr (.inl ⟨_, rfl, rfl, rfl⟩)

/-- Everything WRITE_ALL on a slot can do (R72, R83). -/
theorem writeBytes_cases (slot : Option Frame) (b : Bytes) :
    (slot = none ∧ writeBytes slot b = .error .noFrame) ∨
    (∃ f, slot = some f ∧ f.final = true ∧ writeBytes slot b = .error .writeAfterFinal) ∨
    (∃ f, slot = some f ∧ f.final = false ∧ 254 < f.buf.length + b.length ∧ writeBytes slot b = .error .overflow) ∨
    (∃ f, slot = some f ∧ f.final = false ∧ f.buf.length + b.length ≤ 254 ∧
      writeBytes slot b = .ok ⟨f.buf ++ b, false⟩) := by
  rcases slot with _ | ⟨buf, _ | _⟩
  · exact .inl ⟨rfl, rfl⟩
  · by_cases h : 254 < buf.length + b.length
    · exact .inr (.inr (.inl ⟨_, rfl, rfl, h, by simp [writeBytes, h]⟩))
    · exact .inr (.inr (.inr ⟨_, rfl, rfl, by simpa using h, by simp [writeBytes, h]⟩))
  · exact .inr (.inl ⟨_, rfl, rfl, rfl⟩)

theorem writeBytes_open {buf b : Bytes} (h : buf.length + b.length ≤ 254) :
    writeBytes (some ⟨buf, false⟩) b = .ok ⟨buf ++ b, false⟩ := by
  simp [writeBytes, show ¬ 254 < buf.length + b.length by omega]

theorem writeByte_open {buf : Bytes} {b : Byte} (h : buf.length < 254) :
    writeByte (some ⟨buf, false⟩) b = .ok ⟨buf ++ [b], false⟩ := by
  simp [writeByte, show ¬ 254 ≤ buf.length by omega]

/-- FINALIZE lays an open frame out as R40 does, with the length of R42 and the checksum of R44. -/
theorem finalizeFrame_open (start h l : Byte) (payload : Bytes) :
    finalizeFrame ⟨start :: h :: l :: payload, false⟩ = ⟨wireFrame start payload, true⟩ := by
  have n : payload.length + 1 + 1 = 2 + payload.length := by omega
  have whole (a b : Byte) : (a :: b :: payload).take (2 + payload.length) = a :: b :: payload :=
    List.take_of_length_le (by simp; omega)
  simp [finalizeFrame, wireFrame, memWrite, bigEndian, lengthField, slice, n, whole]

theorem finalizeFrame_final (buf : Bytes) : finalizeFrame ⟨buf, true⟩ = ⟨buf, true⟩ := rfl

@[simp] theorem wireFrame_length (start : Byte) (payload : Bytes) :
    (wireFrame start payload).length = payload.length + 5 := by
  simp [wireFrame, bigEndian]

/-- The length field of a wire frame whose payload fits is `2 + p` (R42). -/
theorem wireFrame_lengthField (start : Byte) {payload : Bytes} (h : payload.length ≤ 251) :
    (be16 (byteAt (wireFrame start payload) 1) (byteAt (wireFrame start payload) 2)).toNat = payload.length + 2 := by
  have e : be16 (byteAt (wireFrame start payload) 1) (byteAt (wireFrame start payload) 2)
      = BitVec.ofNat 16 (2 + payload.length) := by
    simp [wireFrame, bigEndian]
  rw [e, BitVec.toNat_ofNat]
  omega

/-- The bytes a wire frame's checksum covers are its length field and its payload (R44). -/
theorem wireFrame_covered (start : Byte) (payload : Bytes) :
    slice (wireFrame start payload) 1 ((wireFrame start payload).length - 2)
      = bigEndian (BitVec.ofNat 16 (2 + payload.length)) ++ payload := by
  rw [wireFrame_length, show payload.length + 5 - 2 = payload.length + 2 + 1 by omega]
  simp [wireFrame, slice, bigEndian]

/-- A wire frame's payload region is its payload (R80). -/
theorem wireFrame_payload (start : Byte) (payload : Bytes) :
    slice (wireFrame start payload) 3 ((wireFrame start payload).length - 2) = payload := by
  rw [wireFrame_length, show payload.length + 5 - 2 = payload.length + 3 by omega]
  simp [wireFrame, slice, bigEndian]

theorem wireFrame_sealed (start : Byte) (payload : Bytes) : (Frame.mk (wireFrame start payload) true).Sealed := by
  show be16 _ _ = crc16 _
  rw [wireFrame_covered]
  have split : wireFrame start payload = (start :: (bigEndian (BitVec.ofNat 16 (2 + payload.length)) ++ payload)) ++
      bigEndian (crc16 (bigEndian (BitVec.ofNat 16 (2 + payload.length)) ++ payload)) := by simp [wireFrame]
  have len : (start :: (bigEndian (BitVec.ofNat 16 (2 + payload.length)) ++ payload)).length = payload.length + 3 := by
    simp [bigEndian]
  simp only [wireFrame_length]
  rw [split, byteAt_append_right (by omega), byteAt_append_right (by omega), len,
    show payload.length + 5 - 2 - (payload.length + 3) = 0 by omega,
    show payload.length + 5 - 1 - (payload.length + 3) = 1 by omega]
  simp [bigEndian]

/-- A wire frame whose payload fits meets the invariant of a built frame (R14). -/
theorem wireFrame_builtOk (start : Byte) {payload : Bytes} (h : payload.length ≤ 251) :
    (Frame.mk (wireFrame start payload) true).BuiltOk := by
  refine ⟨by simp, by simp; omega, ?_, wireFrame_sealed start payload⟩
  simp only [wireFrame_lengthField start h, wireFrame_length]
  omega

theorem wireFrame_txOk (start : Byte) {payload : Bytes} (h : payload.length ≤ 251) :
    (Frame.mk (wireFrame start payload) true).TxOk :=
  ⟨fun no => absurd no (by simp), fun _ => wireFrame_builtOk start h⟩

theorem newFrame_txOk (start : Byte) : (newFrame start).TxOk :=
  ⟨fun _ => ⟨by simp [newFrame], by simp [newFrame], rfl, rfl⟩, fun no => absurd no (by simp [newFrame])⟩

/-- An append that fits keeps an open frame's invariant (R14). -/
theorem append_txOk {buf b : Bytes} (ok : (Frame.mk buf false).TxOk) (fits : buf.length + b.length ≤ 254) :
    (Frame.mk (buf ++ b) false).TxOk := by
  obtain ⟨lo, -, one, two⟩ := ok.1 rfl
  replace lo : 3 ≤ buf.length := lo
  refine ⟨fun _ => ⟨by simp; omega, by simpa using fits, ?_, ?_⟩, fun no => absurd no (by simp)⟩
  · rw [byteAt_append_left (by omega)]; exact one
  · rw [byteAt_append_left (by omega)]; exact two

/-- A frame of at least three bytes is its header and the rest. -/
theorem exists_header {buf : Bytes} (h : 3 ≤ buf.length) : ∃ start hi lo rest, buf = start :: hi :: lo :: rest := by
  rcases buf with _ | ⟨start, _ | ⟨hi, _ | ⟨lo, rest⟩⟩⟩
  · simp at h
  · simp at h
  · simp at h
  · exact ⟨start, hi, lo, rest, rfl⟩

/-- FINALIZE keeps the invariant (R14). -/
theorem finalizeFrame_txOk {f : Frame} (ok : f.TxOk) : (finalizeFrame f).TxOk := by
  rcases f with ⟨buf, _ | _⟩
  · obtain ⟨lo, hi, -, -⟩ := ok.1 rfl
    obtain ⟨start, a, b, rest, rfl⟩ := exists_header lo
    rw [finalizeFrame_open]
    exact wireFrame_txOk start (by simp at hi; omega)
  · exact ok

end Sys2Proof.Machine
end

