-- ==== Sys2Proof/Laws/Checksum.lean ====
section
/-! SUPPORT. Laws of the checksum (40_checksum.md): the bit and byte steps are linear over exclusive or, and bytes are taken in order. -/

namespace Sys2Proof.Machine

/-- The checksum before the final exclusive or: the fold of R62. -/
def crcFold (r : Half) (b : Bytes) : Half := b.foldl crcByte r

theorem crc16_eq (b : Bytes) : crc16 b = crcFold 0xFFFF#16 b ^^^ 0xFFFF#16 := rfl

theorem crcFold_append (r : Half) (a b : Bytes) : crcFold r (a ++ b) = crcFold (crcFold r a) b := by
  simp [crcFold]

/-- One bit of the bit step (R61). -/
theorem crcBit_getLsbD (r : Half) (bit : Bool) (i : Nat) :
    (crcBit r bit).getLsbD i =
      ((decide (i < 16) && !decide (i < 1) && r.getLsbD (i - 1)) ^^
        ((r.getLsbD 15 ^^ bit) && (Config.crcPoly).getLsbD i)) := by
  simp only [crcBit]
  split <;> rename_i h <;> simp_all

/-- The bit step is linear over exclusive or. -/
theorem crcBit_xor (r t : Half) (a b : Bool) : crcBit (r ^^^ t) (a ^^ b) = crcBit r a ^^^ crcBit t b := by
  ext i hi
  simp only [← BitVec.getLsbD_eq_getElem, BitVec.getLsbD_xor, crcBit_getLsbD]
  cases decide (i < 1) <;> cases r.getLsbD (i - 1) <;> cases t.getLsbD (i - 1) <;> cases r.getLsbD 15 <;>
    cases t.getLsbD 15 <;> cases a <;> cases b <;> cases (Config.crcPoly).getLsbD i <;> simp

/-- The byte step is linear over exclusive or. -/
theorem crcByte_xor (r t : Half) (a b : Byte) : crcByte (r ^^^ t) (a ^^^ b) = crcByte r a ^^^ crcByte t b := by
  simp only [crcByte, List.foldl_cons, List.foldl_nil, BitVec.getLsbD_xor, crcBit_xor]

/-- A byte fed against itself in the register's high half leaves nothing. -/
theorem crcByte_high_self (b : Byte) : crcByte (b.setWidth 16 <<< 8) b = 0#16 := by
  revert b; decide +kernel

/-- The low half of the register only moves up under a zero byte. -/
theorem crcByte_low_zero (l : Byte) : crcByte (l.setWidth 16) 0#8 = l.setWidth 16 <<< 8 := by
  revert l; decide +kernel

/-- A 16-bit value is its two bytes. -/
theorem half_eq_bytes (r : Half) : r = (hi8 r).setWidth 16 <<< 8 ^^^ (lo8 r).setWidth 16 := by
  ext i hi
  simp only [hi8, lo8, BitVec.getElem_xor, BitVec.getElem_shiftLeft, BitVec.getElem_setWidth, BitVec.getLsbD_extractLsb',
    Nat.zero_add]
  by_cases lt : i < 8
  · simp [lt, BitVec.getLsbD_eq_getElem hi]
  · simp [lt, show i - 8 < 8 by omega, show 8 + (i - 8) = i by omega, BitVec.getLsbD_eq_getElem hi]

end Sys2Proof.Machine
end

