-- ==== Sys2Proof/Laws/Decode.lean ====
section
/-! SUPPORT. Laws of the command word (30_encoding.md R49): its fields as numbers, and the words that carry an immediate; which requests are rejected. -/

namespace Sys2Proof

theorem opField_toNat (w : Half) : (opField w).toNat = w.toNat / 4096 := by
  have := w.isLt
  simp [opField, Nat.shiftRight_eq_div_pow]
  omega

theorem rsvField_toNat (w : Half) : (rsvField w).toNat = w.toNat / 512 % 8 := by
  simp [rsvField, Nat.shiftRight_eq_div_pow]

theorem selField_iff (w : Half) : selField w = true ↔ w.toNat / 256 % 2 = 1 := by
  simp [selField, BitVec.getLsbD, Nat.testBit, Nat.shiftRight_eq_div_pow]

theorem immField_toNat (w : Half) : (immField w).toNat = w.toNat % 256 := by
  simp [immField]

theorem opField_eq_iff (w : Half) (n : BitVec 4) : opField w = n ↔ w.toNat / 4096 = n.toNat := by
  rw [BitVec.toNat_eq, opField_toNat]

theorem rsvField_eq_iff (w : Half) (n : BitVec 3) : rsvField w = n ↔ w.toNat / 512 % 8 = n.toNat := by
  rw [BitVec.toNat_eq, rsvField_toNat]

theorem immField_eq_iff (w : Half) (n : Byte) : immField w = n ↔ w.toNat % 256 = n.toNat := by
  rw [BitVec.toNat_eq, immField_toNat]

/-- A constant whose low bits are clear, or-ed with what fits in them, is their sum. -/
theorem or_toNat_of_lt (hi : Half) (k n : Nat) (x : BitVec n) (le : n ≤ 16) (h : hi.toNat = k <<< n) :
    (hi ||| x.setWidth 16).toNat = hi.toNat + x.toNat := by
  have fits : x.toNat < 2 ^ 16 := Nat.lt_of_lt_of_le x.isLt (Nat.pow_le_pow_right (by decide) le)
  rw [BitVec.toNat_or, BitVec.toNat_setWidth, Nat.mod_eq_of_lt fits, h, Nat.shiftLeft_add_eq_or_of_lt x.isLt]

/-- The words that carry an immediate (R70, R71), as numbers. -/
theorem immediate_toNat (b : Byte) :
    (0x1000#16 ||| b.setWidth 16).toNat = 4096 + b.toNat ∧ (0x2000#16 ||| b.setWidth 16).toNat = 8192 + b.toNat :=
  ⟨or_toNat_of_lt _ 16 8 b (by decide) (by decide), or_toNat_of_lt _ 32 8 b (by decide) (by decide)⟩

/-- A word of code F (R53), as a number. -/
theorem reserved_toNat (low : BitVec 12) : (0xF000#16 ||| low.setWidth 16).toNat = 61440 + low.toNat :=
  or_toNat_of_lt _ 15 12 low (by decide) (by decide)

/-- The fields of the words `0x1000 | s` and `0x2000 | b` (R70, R71). -/
theorem immediate_fields (b : Byte) :
    (opField (0x1000#16 ||| b.setWidth 16) = 1#4 ∧ rsvField (0x1000#16 ||| b.setWidth 16) = 0#3 ∧
      selField (0x1000#16 ||| b.setWidth 16) = false ∧ immField (0x1000#16 ||| b.setWidth 16) = b) ∧
    (opField (0x2000#16 ||| b.setWidth 16) = 2#4 ∧ rsvField (0x2000#16 ||| b.setWidth 16) = 0#3 ∧
      selField (0x2000#16 ||| b.setWidth 16) = false ∧ immField (0x2000#16 ||| b.setWidth 16) = b) := by
  have lt : b.toNat < 256 := b.isLt
  simp only [← Bool.not_eq_true, opField_eq_iff, rsvField_eq_iff, selField_iff, immField_eq_iff, immediate_toNat,
    BitVec.toNat_ofNat, Nat.reducePow, Nat.reduceMod]
  omega

/-- The fields of a word of code F (R53). -/
theorem reserved_fields (low : BitVec 12) :
    opField (0xF000#16 ||| low.setWidth 16) = 15#4 ∧ (0xF000#16 ||| low.setWidth 16).extractLsb' 0 12 = low := by
  have lt : low.toNat < 4096 := low.isLt
  constructor
  · rw [opField_eq_iff, reserved_toNat]
    simp only [BitVec.toNat_ofNat, Nat.reducePow, Nat.reduceMod]
    omega
  · rw [BitVec.toNat_eq, BitVec.extractLsb'_toNat, reserved_toNat, Nat.shiftRight_zero]
    omega

/-- What a row's mask keeps of a word that carries an immediate, or of a word of code F. -/
theorem masked_words (b : Byte) (low : BitVec 12) :
    (0x1000#16 ||| b.setWidth 16) &&& 0xFF00#16 = 0x1000#16 ∧ (0x2000#16 ||| b.setWidth 16) &&& 0xFF00#16 = 0x2000#16 ∧
    (0xF000#16 ||| low.setWidth 16) &&& 0xF000#16 = 0xF000#16 := by
  refine ⟨?_, ?_, ?_⟩ <;> ext i hi <;> interval_cases i <;> simp

@[simp] theorem commandOf_opcode (c : DeviceCommand) : commandOf c.opcode = some c := by
  cases c <;> rfl

/-- A device command is never rejected: only a command word is (R53, R55). -/
theorem exists_word_of_decode_error {r : Request} {j : Reject} (h : decode r = .error j) : ∃ cw arg, r = .word cw arg := by
  cases r with
  | word cw arg => exact ⟨cw, arg, rfl⟩
  | command c arg => exact nomatch h

end Sys2Proof
end

