-- ==== Sys2Proof/Laws/Strip.lean ====
section
/-! SUPPORT. Laws of the trailing-zero stripper (42_frame_parser.md R85). -/

namespace Sys2Proof.Machine

theorem stripFrom_le (b : Bytes) (n : Nat) : stripFrom b n ≤ n := by
  induction n with
  | zero => simp [stripFrom]
  | succ n ih => simp only [stripFrom]; split <;> omega

/-- The scan stops at the start or just past a byte that is not zero. -/
theorem stripFrom_last (b : Bytes) (n : Nat) (h : stripFrom b n ≠ 0) : byteAt b (stripFrom b n - 1) ≠ 0#8 := by
  induction n with
  | zero => exact absurd rfl h
  | succ n ih =>
    simp only [stripFrom] at h ⊢
    split
    · rename_i z; rw [if_pos z] at h; exact ih h
    · assumption

/-- What the scan passes over is zero. -/
theorem stripFrom_zero (b : Bytes) (n i : Nat) (lo : stripFrom b n ≤ i) (hi : i < n) : byteAt b i = 0#8 := by
  induction n with
  | zero => omega
  | succ n ih =>
    simp only [stripFrom] at lo
    split at lo
    · rename_i z
      by_cases e : i = n
      · exact e ▸ z
      · exact ih lo (by omega)
    · omega

/-- The scan finds `m` when all from `m` to `n` is zero and the byte before `m`, if there is one, is not. -/
theorem stripFrom_unique (b : Bytes) (n m : Nat) (le : m ≤ n) (last : m = 0 ∨ byteAt b (m - 1) ≠ 0#8)
    (zero : ∀ i, m ≤ i → i < n → byteAt b i = 0#8) : stripFrom b n = m := by
  induction n with
  | zero => simp only [stripFrom]; omega
  | succ n ih =>
    simp only [stripFrom]
    split
    · rename_i z
      have ne : m ≠ n + 1 := by
        rintro rfl
        rcases last with h | h
        · omega
        · exact h z
      exact ih (by omega) fun i lo hi => zero i lo (by omega)
    · rename_i nz
      have : ¬ m ≤ n := fun h => nz (zero n h (by omega))
      omega

theorem strip_le (b : Bytes) : strip b ≤ b.length := stripFrom_le b b.length

theorem strip_last (b : Bytes) (h : strip b ≠ 0) : byteAt b (strip b - 1) ≠ 0#8 := stripFrom_last b b.length h

theorem byteAt_of_strip_le {b : Bytes} {i : Nat} (h : strip b ≤ i) : byteAt b i = 0#8 := by
  by_cases hi : i < b.length
  · exact stripFrom_zero b b.length i h hi
  · exact byteAt_of_length_le (by omega)

/-- Zeros after bytes whose last is not zero are padding, and nothing else is. -/
theorem strip_append_zeros {b : Bytes} (h : byteAt b (b.length - 1) ≠ 0#8) (k : Nat) : strip (b ++ zeros k) = b.length := by
  have pos : 0 < b.length := by
    rcases b with _ | ⟨x, b⟩
    · exact absurd rfl h
    · simp
  refine stripFrom_unique _ _ _ (by simp) (.inr ?_) fun i lo _ => ?_
  · rwa [byteAt_append_left (by omega)]
  · rw [byteAt_append_right lo]
    simp only [byteAt, List.getD_eq_getElem?_getD, zeros, List.getElem?_replicate]
    split <;> rfl

end Sys2Proof.Machine
end

