-- ==== Sys2Proof/Laws/Device.lean ====
section
/-! SUPPORT. Laws of the encoders and decoders (43_device_protocol.md): what each can answer. -/

namespace Sys2Proof.Machine

theorem encodeInventory_eq : encodeInventory = .ok ⟨wireFrame Config.startData inventoryPayload, true⟩ := by
  simp only [encodeInventory, newFrame]
  rw [writeBytes_open (by decide)]
  exact congrArg Except.ok (finalizeFrame_open ..)

/-- Everything the read encoder can answer (R101). -/
theorem encodeRead_cases (id : Bytes) :
    (id.length ≠ 8 ∧ encodeRead id = .error .wrongCardId) ∨
    (id.length = 8 ∧ encodeRead id = .ok ⟨wireFrame Config.startRead (readPayload id), true⟩) := by
  by_cases h : id.length = 8
  · refine .inr ⟨h, ?_⟩
    simp only [encodeRead, Config.idLen, h, ne_eq, not_true_eq_false, if_false, newFrame]
    rw [writeByte_open (by decide)]
    simp only [bind, Except.bind]
    rw [writeBytes_open (by simp [h])]
    dsimp only
    rw [writeBytes_open (by simp [h])]
    simp [finalizeSlot, finalizeFrame_open, readPayload]
  · exact .inl ⟨h, by simp [encodeRead, h]⟩

/-- Everything the write encoder can answer (R102). -/
theorem encodeWrite_cases (id data : Bytes) :
    (id.length ≠ 8 ∧ encodeWrite id data = .error .wrongCardId) ∨
    (id.length = 8 ∧ 231 < data.length ∧ encodeWrite id data = .error .overflow) ∨
    (id.length = 8 ∧ data.length ≤ 231 ∧
      encodeWrite id data = .ok ⟨wireFrame Config.startWrite (writePayload id data), true⟩) := by
  by_cases h : id.length = 8
  · by_cases big : 231 < data.length
    · exact .inr (.inl ⟨h, big, by simp [encodeWrite, h, big]⟩)
    · refine .inr (.inr ⟨h, by omega, ?_⟩)
      simp only [encodeWrite, Config.idLen, h, ne_eq, not_true_eq_false, if_false, newFrame, Config.wrDataMax, gt_iff_lt, big]
      rw [writeByte_open (by decide)]
      simp only [bind, Except.bind]
      rw [writeBytes_open (by simp [h])]
      dsimp only
      rw [writeBytes_open (by simp [h])]
      dsimp only
      rw [writeBytes_open (by simp [h]; omega)]
      dsimp only
      rw [writeBytes_open (by simp [h]; omega)]
      simp [finalizeSlot, finalizeFrame_open, writePayload]
  · exact .inl ⟨h, by simp [encodeWrite, h]⟩

/-- Everything the tests of a device command can answer. -/
theorem checkCommand_cases (id data : Bytes) :
    (id.length ≠ 8 ∧ checkCommand id data = .error .wrongCardId) ∨
    (id.length = 8 ∧ 231 < data.length ∧ checkCommand id data = .error .overflow) ∨
    (id.length = 8 ∧ data.length ≤ 231 ∧ checkCommand id data = .ok ()) := by
  by_cases h : id.length = 8
  · by_cases big : 231 < data.length
    · exact .inr (.inl ⟨h, big, by simp [checkCommand, h, big]⟩)
    · exact .inr (.inr ⟨h, by omega, by simp [checkCommand, h, big]⟩)
  · exact .inl ⟨h, by simp [checkCommand, h]⟩

@[simp] theorem readPayload_length (id : Bytes) : (readPayload id).length = id.length + 4 := by
  simp [readPayload]

@[simp] theorem writePayload_length (id data : Bytes) :
    (writePayload id data).length = id.length + data.length + 12 := by
  simp [writePayload]; omega

/-- Everything the inventory decoder can answer (R110). -/
theorem decodeInventory_cases (r : Bytes) :
    (r.length < 5 ∧ decodeInventory r = .error .wrongResponse) ∨
    (5 ≤ r.length ∧ cardCount r = 0 ∧ decodeInventory r = .error .noCard) ∨
    (5 ≤ r.length ∧ cardCount r ≠ 0 ∧ r.length < 6 + 9 * cardCount r ∧ decodeInventory r = .error .wrongResponse) ∨
    (5 ≤ r.length ∧ cardCount r ≠ 0 ∧ 6 + 9 * cardCount r ≤ r.length ∧
      decodeInventory r = .ok ((List.range (cardCount r)).map (cardIdentifier r))) := by
  by_cases a : r.length < 5
  · exact .inl ⟨a, by simp [decodeInventory, a]⟩
  by_cases b : cardCount r = 0
  · exact .inr (.inl ⟨by omega, b, by simp [decodeInventory, a, b]⟩)
  by_cases c : r.length < 6 + 9 * cardCount r
  · exact .inr (.inr (.inl ⟨by omega, b, c, by simp [decodeInventory, a, b, recordOffset, c]⟩))
  · exact .inr (.inr (.inr ⟨by omega, b, by omega, by simp [decodeInventory, a, b, recordOffset, c]⟩))

/-- Everything the read decoder can answer (R111). -/
theorem decodeRead_cases (r : Bytes) :
    (r.length < 3 ∧ decodeRead r = .error .wrongResponse) ∨
    (3 ≤ r.length ∧ byteAt r 1 ≠ 0#8 ∧ decodeRead r = .error .noCard) ∨
    (3 ≤ r.length ∧ byteAt r 1 = 0#8 ∧ decodeRead r = .ok (slice r 12 (strip r - 2))) := by
  have st : statusByte r = byteAt r 1 := rfl
  by_cases a : r.length < 3
  · exact .inl ⟨a, by simp [decodeRead, a]⟩
  by_cases b : byteAt r 1 = 0#8
  · refine .inr (.inr ⟨by omega, b, ?_⟩)
    have e : (adjustedEnd r).toNat = strip r - 2 := by simp only [adjustedEnd, Config.rdTail]; omega
    by_cases c : adjustedEnd r ≤ 12
    · have z : strip r - 2 - 12 = 0 := by omega
      simp [decodeRead, a, st, b, c, slice, z]
    · simp [decodeRead, a, st, b, c, e]
  · exact .inr (.inl ⟨by omega, b, by rw [decodeRead, if_neg a, st, if_pos b]⟩)

/-- Everything the write decoder can answer (R112). -/
theorem decodeWrite_cases (r : Bytes) :
    (r.length < 2 ∧ decodeWrite r = .error .wrongResponse) ∨
    (2 ≤ r.length ∧ byteAt r 1 ≠ 0#8 ∧ decodeWrite r = .error .noCard) ∨
    (2 ≤ r.length ∧ byteAt r 1 = 0#8 ∧ decodeWrite r = .ok ()) := by
  have st : byteAt r Config.wrStatusOff = byteAt r 1 := rfl
  by_cases a : r.length < 2
  · exact .inl ⟨a, by simp [decodeWrite, a]⟩
  by_cases b : byteAt r 1 = 0#8
  · exact .inr (.inr ⟨by omega, b, by simp [decodeWrite, a, b]⟩)
  · exact .inr (.inl ⟨by omega, b, by rw [decodeWrite, if_neg a, st, if_pos b]⟩)

end Sys2Proof.Machine
end

