-- ==== Sys2Proof/Laws/Parser.lean ====
section
/-! SUPPORT. Laws of the parser (42_frame_parser.md): everything PARSE of a record can do, and that a frame it produces meets the invariant R15. -/

namespace Sys2Proof.Machine

/-- Everything the five steps can do with a record (R86). -/
theorem parseRecord_cases (record : Record) :
    (strip record.toList < 3 ∧ parseRecord record = .error .shortRecord) ∨
    (3 ≤ strip record.toList ∧
      computedChecksum record.toList (strip record.toList) ≠ declaredChecksum record.toList (strip record.toList) ∧
      parseRecord record = .error .wrongChecksum) ∨
    (3 ≤ strip record.toList ∧
      computedChecksum record.toList (strip record.toList) = declaredChecksum record.toList (strip record.toList) ∧
      parseRecord record = .ok (slice record.toList 0 (strip record.toList))) := by
  by_cases short : strip record.toList < 3
  · exact .inl ⟨short, by simp [parseRecord, short]⟩
  · by_cases same : computedChecksum record.toList (strip record.toList)
        = declaredChecksum record.toList (strip record.toList)
    · exact .inr (.inr ⟨by omega, same, by simp [parseRecord, short, same]⟩)
    · exact .inr (.inl ⟨by omega, same, by simp [parseRecord, short, same]⟩)

theorem logical_length (b : Bytes) : (slice b 0 (strip b)).length = strip b := by
  have := strip_le b
  rw [slice_length]; omega

theorem byteAt_logical (b : Bytes) {i : Nat} (h : i < strip b) : byteAt (slice b 0 (strip b)) i = byteAt b i := by
  rw [byteAt_slice _ _ _ _ (by omega), Nat.zero_add]

/-- The covered bytes of the logical bytes are those of the record. -/
theorem slice_logical (b : Bytes) (j : Nat) (h : j ≤ strip b) : slice (slice b 0 (strip b)) 1 j = slice b 1 j := by
  simp only [slice, List.drop_zero, Nat.sub_zero, List.drop_take, List.take_take]
  congr 1
  omega

/-- Three logical bytes never pass: the checksum of no bytes is zero and the last logical byte is not (R91). -/
theorem parse_three_fails (b : Bytes) (h : strip b = 3) : computedChecksum b 3 ≠ declaredChecksum b 3 := by
  intro same
  have last := strip_last b (by omega)
  rw [h] at last
  apply last
  have e : computedChecksum b 3 = 0 := by simp [computedChecksum, slice, crc16]
  rw [e, declaredChecksum] at same
  have n := congrArg BitVec.toNat same
  rw [be16_toNat] at n
  apply BitVec.eq_of_toNat_eq
  simp at n ⊢
  omega

/-- A frame PARSE produces meets the invariant (R15). -/
theorem parseRecord_rxOk {record : Record} {logical : Bytes} (h : parseRecord record = .ok logical) :
    (Frame.mk logical true).RxOk := by
  obtain ⟨-, e⟩ | ⟨-, -, e⟩ | ⟨lo, same, e⟩ := parseRecord_cases record
  · rw [e] at h; cases h
  · rw [e] at h; cases h
  rw [e] at h
  cases h
  have le := strip_le record.toList
  rw [Vector.length_toList] at le
  have four : 4 ≤ strip record.toList := by
    by_contra no
    have three : strip record.toList = 3 := by omega
    rw [three] at same
    exact parse_three_fails _ three same
  refine ⟨rfl, ?_, ?_, ?_, ?_⟩
  · simpa only [logical_length] using four
  · simpa only [logical_length] using le
  · simp only [logical_length]
    rw [byteAt_logical _ (by omega)]
    exact strip_last _ (by omega)
  · show be16 _ _ = crc16 _
    simp only [logical_length]
    rw [byteAt_logical _ (by omega), byteAt_logical _ (by omega), slice_logical _ _ (by omega)]
    exact same.symm

/-- A record made of a frame whose last byte is not zero has that frame as its logical bytes. -/
theorem strip_pad {f : Bytes} (le : f.length ≤ 256) (last : byteAt f (f.length - 1) ≠ 0#8) :
    strip (pad f).toList = f.length := by
  rw [pad_toList_of_le le]
  exact strip_append_zeros last _

/-- PARSE of a frame that fits, padded with zeros, its last byte not zero: the tests of R86 on the frame itself. -/
theorem parseRecord_pad {f : Bytes} (le : f.length ≤ 256) (last : byteAt f (f.length - 1) ≠ 0#8) :
    parseRecord (pad f) =
      if f.length < 3 then .error .shortRecord
      else if crc16 (slice f 1 (f.length - 2)) ≠ be16 (byteAt f (f.length - 2)) (byteAt f (f.length - 1)) then
        .error .wrongChecksum
      else .ok f := by
  have n := strip_pad le last
  have logical : slice (pad f).toList 0 f.length = f := by rw [pad_toList_of_le le]; simp [slice]
  simp only [parseRecord, n, logical]
  split
  · rfl
  · have declared : declaredChecksum (pad f).toList f.length = be16 (byteAt f (f.length - 2)) (byteAt f (f.length - 1)) := by
      simp only [declaredChecksum, pad_toList_of_le le]
      rw [byteAt_append_left (by omega), byteAt_append_left (by omega)]
    have computed : computedChecksum (pad f).toList f.length = crc16 (slice f 1 (f.length - 2)) := by
      rw [computedChecksum, ← slice_logical _ _ (by rw [n]; omega), n, logical]
    rw [declared, computed]

end Sys2Proof.Machine
end

