-- ==== Sys2Proof/Laws/State.lean ====
section
/-! SUPPORT. One lemma per field per update of State: answering, raising, settling, storing a frame, reset. -/

namespace Sys2Proof.Machine

@[simp] theorem answer_txf (v : Value) (s : State) : (answer v s).txf = s.txf := rfl
@[simp] theorem answer_rxf (v : Value) (s : State) : (answer v s).rxf = s.rxf := rfl
@[simp] theorem answer_input (v : Value) (s : State) : (answer v s).input = s.input := rfl
@[simp] theorem answer_res (v : Value) (s : State) : (answer v s).res = some (.ok v) := rfl

@[simp] theorem raise_txf (k : ErrKind) (s : State) : (raise k s).txf = s.txf := rfl
@[simp] theorem raise_rxf (k : ErrKind) (s : State) : (raise k s).rxf = s.rxf := rfl
@[simp] theorem raise_input (k : ErrKind) (s : State) : (raise k s).input = s.input := rfl
@[simp] theorem raise_res (k : ErrKind) (s : State) : (raise k s).res = some (.err k) := rfl

@[simp] theorem settleValue_ok (v : Value) (s : State) : settleValue (.ok v) s = answer v s := rfl
@[simp] theorem settleValue_error (k : ErrKind) (s : State) : settleValue (.error k) s = raise k s := rfl

@[simp] theorem settleFrame_ok (f : Frame) (value : Frame → Value) (s : State) :
    settleFrame (.ok f) value s = answer (value f) { s with txf := some f } := rfl
@[simp] theorem settleFrame_error (k : ErrKind) (value : Frame → Value) (s : State) :
    settleFrame (.error k) value s = raise k s := rfl

@[simp] theorem settleParse_ok (b : Bytes) (s : State) :
    settleParse (.ok b) s = answer (parseValue b) { s with rxf := some ⟨b, true⟩ } := rfl
@[simp] theorem settleParse_error (k : ErrKind) (s : State) :
    settleParse (.error k) s = raise k { s with rxf := none } := rfl

@[simp] theorem settleValue_txf (r : Except ErrKind Value) (s : State) : (settleValue r s).txf = s.txf := by
  cases r <;> rfl
@[simp] theorem settleValue_rxf (r : Except ErrKind Value) (s : State) : (settleValue r s).rxf = s.rxf := by
  cases r <;> rfl
@[simp] theorem settleValue_input (r : Except ErrKind Value) (s : State) : (settleValue r s).input = s.input := by
  cases r <;> rfl
theorem settleValue_res_isSome (r : Except ErrKind Value) (s : State) : (settleValue r s).res.isSome := by
  cases r <;> rfl

@[simp] theorem settleFrame_rxf (r : Except ErrKind Frame) (value : Frame → Value) (s : State) :
    (settleFrame r value s).rxf = s.rxf := by
  cases r <;> rfl
@[simp] theorem settleFrame_input (r : Except ErrKind Frame) (value : Frame → Value) (s : State) :
    (settleFrame r value s).input = s.input := by
  cases r <;> rfl
theorem settleFrame_res_isSome (r : Except ErrKind Frame) (value : Frame → Value) (s : State) :
    (settleFrame r value s).res.isSome := by
  cases r <;> rfl
theorem settleFrame_txf (r : Except ErrKind Frame) (value : Frame → Value) (s : State) :
    (settleFrame r value s).txf = match r with | .ok f => some f | .error _ => s.txf := by
  cases r <;> rfl

@[simp] theorem settleParse_txf (r : Except ErrKind Bytes) (s : State) : (settleParse r s).txf = s.txf := by
  cases r <;> rfl
@[simp] theorem settleParse_input (r : Except ErrKind Bytes) (s : State) : (settleParse r s).input = s.input := by
  cases r <;> rfl
theorem settleParse_res_isSome (r : Except ErrKind Bytes) (s : State) : (settleParse r s).res.isSome := by
  cases r <;> rfl
theorem settleParse_rxf (r : Except ErrKind Bytes) (s : State) :
    (settleParse r s).rxf = match r with | .ok b => some ⟨b, true⟩ | .error _ => none := by
  cases r <;> rfl

@[simp] theorem resetEvent_txf (s : State) : (resetEvent s).txf = none := rfl
@[simp] theorem resetEvent_rxf (s : State) : (resetEvent s).rxf = none := rfl
@[simp] theorem resetEvent_res (s : State) : (resetEvent s).res = none := rfl
@[simp] theorem resetEvent_input (s : State) : (resetEvent s).input = s.input := rfl

@[simp] theorem withFetchWord_input (s : State) (nbits w : Nat) :
    (s.withFetchWord nbits w).input = (tableRequest nbits w).toList.map .issue ++ s.input := rfl
@[simp] theorem withFetchWord_txf (s : State) (nbits w : Nat) : (s.withFetchWord nbits w).txf = s.txf := rfl
@[simp] theorem withFetchWord_rxf (s : State) (nbits w : Nat) : (s.withFetchWord nbits w).rxf = s.rxf := rfl
@[simp] theorem withFetchWord_res (s : State) (nbits w : Nat) : (s.withFetchWord nbits w).res = s.res := rfl

end Sys2Proof.Machine
end

