-- ==== Sys2Proof/Laws/Exec.lean ====
section
/-! SUPPORT. What an operation can do, said once: the four shapes of exec's answer, and the moves of the host. -/

namespace Sys2Proof.Machine

/-- The shapes of an operation's answer. -/
inductive Shape (i : Instr) (s : State) : Prop where
  /-- FINALIZE on an open frame outside its bound stops. -/
  | stops (h : i = .finalize) (w : withinBounds s.txf = false) (e : exec i s = .fault .openFrameOutOfBounds)
  /-- No slot changes. -/
  | value (r : Except ErrKind Value) (e : exec i s = .next (settleValue r s))
  /-- `TXF` gets a frame, or nothing changes. -/
  | frame (r : Except ErrKind Frame) (v : Frame → Value) (keeps : ∀ f, r = .ok f → slotHas Frame.TxOk s.txf → f.TxOk)
      (e : exec i s = .next (settleFrame r v s))
  /-- `RXF` gets a frame or is emptied. -/
  | parse (record : Record) (h : i = .parse record) (e : exec i s = .next (settleParse (parseRecord record) s))

theorem exec_shape (i : Instr) (s : State) : Shape i s := by
  cases i with
  | crc16 b => exact .value _ rfl
  | new start => exact .frame _ _ (fun f h _ => by cases h; exact newFrame_txOk start) rfl
  | write b =>
    refine .frame _ _ (fun f h ok => ?_) rfl
    obtain ⟨-, e⟩ | ⟨_, -, -, e⟩ | ⟨_, -, -, -, e⟩ | ⟨⟨buf, fin⟩, hs, hf, lt, e⟩ := writeByte_cases s.txf b
    all_goals rw [e] at h; cases h
    cases hf
    exact append_txOk (ok _ hs) (by simpa using lt)
  | writeAll b =>
    refine .frame _ _ (fun f h ok => ?_) rfl
    obtain ⟨-, e⟩ | ⟨_, -, -, e⟩ | ⟨_, -, -, -, e⟩ | ⟨⟨buf, fin⟩, hs, hf, le, e⟩ := writeBytes_cases s.txf b
    all_goals rw [e] at h; cases h
    cases hf
    exact append_txOk (ok _ hs) le
  | finalize =>
    by_cases w : withinBounds s.txf = true
    · refine .frame (finalizeSlot s.txf) (fun f => .bytes f.buf) (fun f h ok => ?_) ?_
      · cases hs : s.txf with
        | none => rw [hs] at h; cases h
        | some g => rw [hs] at h; cases h; exact finalizeFrame_txOk (ok _ hs)
      · simp [exec, execFinalize, w]
    · exact .stops rfl (by simpa using w) (by simp [exec, execFinalize, w])
  | payload sel => exact .value _ rfl
  | strip b => exact .value _ rfl
  | parse record => exact .parse record rfl rfl
  | encInventory =>
    refine .frame _ _ (fun f h _ => ?_) rfl
    rw [encodeInventory_eq] at h
    cases h
    exact wireFrame_txOk _ (by decide)
  | encRead id =>
    refine .frame _ _ (fun f h _ => ?_) rfl
    obtain ⟨-, e⟩ | ⟨n, e⟩ := encodeRead_cases id
    all_goals rw [e] at h; cases h
    exact wireFrame_txOk _ (by simp [n])
  | encWrite id data =>
    refine .frame _ _ (fun f h _ => ?_) rfl
    obtain ⟨-, e⟩ | ⟨-, -, e⟩ | ⟨n, d, e⟩ := encodeWrite_cases id data
    all_goals rw [e] at h; cases h
    exact wireFrame_txOk _ (by simp [n]; omega)
  | decInventory r => exact .value _ rfl
  | decRead r => exact .value _ rfl
  | decWrite r => exact .value _ rfl
  | decRaw r => exact .value _ rfl
  | reservedF low => exact .value (.error .notImplemented) rfl
  | cmdInventory =>
    refine .frame _ _ (fun f h _ => ?_) rfl
    cases h
    exact wireFrame_txOk _ (by decide)
  | cmdRead id =>
    refine .frame _ _ (fun f h _ => ?_) rfl
    obtain ⟨-, e⟩ | ⟨-, -, e⟩ | ⟨n, -, e⟩ := checkCommand_cases id []
    all_goals rw [e] at h; cases h
    exact wireFrame_txOk _ (by simp [n])
  | cmdWrite id data =>
    refine .frame _ _ (fun f h _ => ?_) rfl
    obtain ⟨-, e⟩ | ⟨-, -, e⟩ | ⟨n, d, e⟩ := checkCommand_cases id data
    all_goals rw [e] at h; cases h
    exact wireFrame_txOk _ (by simp [n]; omega)

/-- An operation leaves the moves the host has yet to make alone. -/
theorem exec_input {i : Instr} {s s' : State} (h : exec i s = .next s') : s'.input = s.input := by
  cases exec_shape i s with
  | stops _ _ e => rw [e] at h; cases h
  | value _ e => rw [e] at h; cases h; simp
  | frame _ _ _ e => rw [e] at h; cases h; simp
  | parse _ _ e => rw [e] at h; cases h; simp

/-- An operation that ends drives `RES`. -/
theorem exec_res_isSome {i : Instr} {s s' : State} (h : exec i s = .next s') : s'.res.isSome := by
  cases exec_shape i s with
  | stops _ _ e => rw [e] at h; cases h
  | value r e => rw [e] at h; cases h; exact settleValue_res_isSome r s
  | frame r v _ e => rw [e] at h; cases h; exact settleFrame_res_isSome r v s
  | parse record _ e => rw [e] at h; cases h; exact settleParse_res_isSome _ s

/-- A frame that meets R14 is one FINALIZE may be given. -/
theorem withinBounds_of_txOk {slot : Option Frame} (h : slotHas Frame.TxOk slot) : withinBounds slot = true := by
  rcases slot with _ | ⟨buf, _ | _⟩
  · rfl
  · obtain ⟨lo, hi, -, -⟩ := (h _ rfl).1 rfl
    simp only at lo hi
    simp [withinBounds, lo, hi]
  · rfl

/-- Everything taking a move can do. -/
theorem step_cases (s : State) :
    (s.input = [] ∧ step s = .next s) ∨
    (∃ r rest i, s.input = .issue r :: rest ∧ decode r = .ok i ∧ step s = exec i { s with input := rest }) ∨
    (∃ r rest j, s.input = .issue r :: rest ∧ decode r = .error j ∧
      step s = .next (raise .notImplemented { s with input := rest })) ∨
    (∃ a b rest, s.input = .issueTwo a b :: rest ∧ step s = .refused .concurrentIssue) ∨
    (∃ rest, s.input = .reset :: rest ∧ step s = .next (resetEvent { s with input := rest })) := by
  rcases e : s.input with _ | ⟨r | ⟨a, b⟩ | _, rest⟩
  · exact .inl ⟨rfl, by simp [step, takeMove, e]⟩
  · cases d : decode r with
    | ok i => exact .inr (.inl ⟨r, rest, i, rfl, d, by simp [step, takeMove, e, runMove, issue, d]⟩)
    | error j => exact .inr (.inr (.inl ⟨r, rest, j, rfl, d, by simp [step, takeMove, e, runMove, issue, d]⟩))
  · exact .inr (.inr (.inr (.inl ⟨a, b, rest, rfl, by simp [step, takeMove, e, runMove]⟩)))
  · exact .inr (.inr (.inr (.inr ⟨rest, rfl, by simp [step, takeMove, e, runMove]⟩)))

end Sys2Proof.Machine
end

