-- ==== Sys2Proof/Laws/PerInstr.lean ====
section
/-! SUPPORT. Laws made per instruction. RowMatch: the encoding of every instruction has its row's bits in spec/opcode_table.json. -/

namespace Sys2Proof.Laws.RowMatch

/-- The selector of an instruction's encoding matches its row's mask and match. -/
def Statement (i : Instr) : Prop := (tableRow i).accepts (encode i).nbits (encode i).selector = true

theorem crc16 (b : Bytes) : Statement (.crc16 b) := by simp [Statement, tableRow, encode, TableRow.accepts, Request.nbits, Request.selector]

theorem new (start : Byte) : Statement (.new start) := by
  have kept := congrArg BitVec.toNat (masked_words start 0).1
  rw [BitVec.toNat_and] at kept
  simpa [Statement, tableRow, encode, TableRow.accepts, Request.nbits, Request.selector] using kept

theorem write (b : Byte) : Statement (.write b) := by
  have kept := congrArg BitVec.toNat (masked_words b 0).2.1
  rw [BitVec.toNat_and] at kept
  simpa [Statement, tableRow, encode, TableRow.accepts, Request.nbits, Request.selector] using kept

theorem writeAll (b : Bytes) : Statement (.writeAll b) := by simp [Statement, tableRow, encode, TableRow.accepts, Request.nbits, Request.selector]

theorem finalize : Statement .finalize := by simp [Statement, tableRow, encode, TableRow.accepts, Request.nbits, Request.selector]

theorem payload (sel : Slot) : Statement (.payload sel) := by
  cases sel <;> simp [Statement, tableRow, encode, TableRow.accepts, Request.nbits, Request.selector]

theorem strip (b : Bytes) : Statement (.strip b) := by simp [Statement, tableRow, encode, TableRow.accepts, Request.nbits, Request.selector]

theorem parse (record : Record) : Statement (.parse record) := by simp [Statement, tableRow, encode, TableRow.accepts, Request.nbits, Request.selector]

theorem encInventory : Statement .encInventory := by simp [Statement, tableRow, encode, TableRow.accepts, Request.nbits, Request.selector]

theorem encRead (id : Bytes) : Statement (.encRead id) := by simp [Statement, tableRow, encode, TableRow.accepts, Request.nbits, Request.selector]

theorem encWrite (id data : Bytes) : Statement (.encWrite id data) := by simp [Statement, tableRow, encode, TableRow.accepts, Request.nbits, Request.selector]

theorem decInventory (r : Bytes) : Statement (.decInventory r) := by simp [Statement, tableRow, encode, TableRow.accepts, Request.nbits, Request.selector]

theorem decRead (r : Bytes) : Statement (.decRead r) := by simp [Statement, tableRow, encode, TableRow.accepts, Request.nbits, Request.selector]

theorem decWrite (r : Bytes) : Statement (.decWrite r) := by simp [Statement, tableRow, encode, TableRow.accepts, Request.nbits, Request.selector]

theorem decRaw (r : Bytes) : Statement (.decRaw r) := by simp [Statement, tableRow, encode, TableRow.accepts, Request.nbits, Request.selector]

theorem reservedF (low : BitVec 12) : Statement (.reservedF low) := by
  have kept := congrArg BitVec.toNat (masked_words 0 low).2.2
  rw [BitVec.toNat_and] at kept
  simpa [Statement, tableRow, encode, TableRow.accepts, Request.nbits, Request.selector] using kept

theorem cmdInventory : Statement .cmdInventory := by simp [DeviceCommand.opcode, Statement, tableRow, encode, TableRow.accepts, Request.nbits, Request.selector]

theorem cmdRead (id : Bytes) : Statement (.cmdRead id) := by simp [DeviceCommand.opcode, Statement, tableRow, encode, TableRow.accepts, Request.nbits, Request.selector]

theorem cmdWrite (id data : Bytes) : Statement (.cmdWrite id data) := by simp [DeviceCommand.opcode, Statement, tableRow, encode, TableRow.accepts, Request.nbits, Request.selector]

end Sys2Proof.Laws.RowMatch
end

