-- ==== Sys2Proof/Tests/Slice0.lean ====
section
/-! SUPPORT. Tests of single operations against the vectors of spec/95_test_vectors.md, decoding against words written out from 30_encoding.md R49, the smoke test of WellFormed, and for every obligation with hypotheses a witness that meets them. -/

namespace Sys2Proof.Tests

/-! Each `decide +kernel` waits for the kernel in a thread of its own; the tests are elaborated one after the other, so that
these threads do not pile up. -/

set_option Elab.async false

open Sys2Proof Sys2Proof.Machine

/-! ## Small states -/

/-- `TXF` holds an open frame of three bytes and `extra`; `RXF` nothing. -/
def openState (extra : Bytes) : State := { State.reset with txf := some ⟨[0xD6#8, 0x00#8, 0x00#8] ++ extra, false⟩ }

/-- The finalized frame without payload of V-B2'. -/
def emptyFrame : Bytes := [0xD6#8, 0x00#8, 0x02#8, 0xC2#8, 0xB2#8]

/-- The finalized frame with payload `00` of V-B4. -/
def zeroFrame : Bytes := [0xD6#8, 0x00#8, 0x03#8, 0x00#8, 0x66#8, 0x30#8]

/-- Both slots hold a finalized frame. -/
def finalState : State := { State.reset with txf := some ⟨emptyFrame, true⟩, rxf := some ⟨zeroFrame, true⟩ }

/-- The card identifier of the vectors. -/
def card : Bytes := [0x01#8, 0x02#8, 0x03#8, 0x04#8, 0x05#8, 0x06#8, 0x07#8, 0x08#8]

/-- The state an operation leaves, if it leaves one. -/
def after (i : Instr) (s : State) : Option State :=
  match exec i s with
  | .next t => some t
  | .fault _ => none
  | .refused _ => none

/-- The state a step leaves, if it leaves one. -/
def afterStep (s : State) : Option State :=
  match step s with
  | .next t => some t
  | .fault _ => none
  | .refused _ => none

/-- What `RES` carries after an operation. -/
def resOf (i : Instr) (s : State) : Option Res := (after i s).bind State.res

/-- The frame an operation leaves in `TXF`, without its start byte (a constant of no stated value). -/
def tailOf (i : Instr) (s : State) : Option (Bytes × Bool) :=
  (after i s).bind fun t => t.txf.map fun f => (f.buf.drop 1, f.final)

/-- What PARSE leaves when the five steps pass. -/
theorem parse_passes {record : Record} {b : Bytes} (h : parseRecord record = .ok b) (s : State) :
    after (.parse record) s =
      some { s with rxf := some ⟨b, true⟩, res := some (.ok (.frame b (classOf (byteAt b 0)) (lengthAgrees b b.length))) } := by
  simp only [after, exec, execParse, h]
  rfl

/-- What PARSE leaves when one of them fails. -/
theorem parse_refuses {record : Record} {k : ErrKind} (h : parseRecord record = .error k) (s : State) :
    after (.parse record) s = some { s with rxf := none, res := some (.err k) } := by
  simp only [after, exec, execParse, h]
  rfl

theorem openState_inv (extra : Bytes) (h : extra.length ≤ 251) : (openState extra).Inv := by
  refine ⟨fun f hf => ?_, fun f hf => nomatch hf⟩
  obtain rfl : _ = f := Option.some.inj hf
  exact ⟨fun _ => ⟨by simp, by simp; omega, rfl, rfl⟩, fun no => absurd no (by simp)⟩

theorem finalState_inv : finalState.Inv := by
  refine ⟨fun f hf => ?_, fun f hf => ?_⟩
  · obtain rfl : _ = f := Option.some.inj hf
    exact ⟨fun no => absurd no (by decide), fun _ => by decide +kernel⟩
  · obtain rfl : _ = f := Option.some.inj hf
    decide +kernel

theorem reset_inv : State.reset.Inv := by
  refine ⟨fun f hf => ?_, fun f hf => ?_⟩
  · exact nomatch hf
  · exact nomatch hf

/-! ## WellFormed -/

/-- Each check of WellFormed refuses an ill-formed term. -/
theorem test_wellFormed_refuses :
    (Instr.cmdRead (card.take 7)).wellFormed = false ∧ (Instr.cmdRead (card ++ [0x09#8])).wellFormed = false ∧
    (Instr.cmdWrite (card.take 7) []).wellFormed = false ∧ (Instr.cmdWrite card (zeros 232)).wellFormed = false := by
  decide +kernel

theorem test_wellFormed_accepts :
    (Instr.cmdRead card).wellFormed = true ∧ (Instr.cmdWrite card (zeros 231)).wellFormed = true ∧
    (Instr.cmdWrite card []).wellFormed = true ∧ (Instr.encRead []).wellFormed = true := by
  decide +kernel

/-! ## Decoding: words written out from the fields op(15:12) rsv(11:9) sel(8) imm8(7:0) of R49 -/

theorem test_decode_checksum : decode (.word 0b0000000000000000#16 { seq0 := [0x41#8] }) = .ok (.crc16 [0x41#8]) := rfl

theorem test_decode_builder :
    decode (.word 0b0001000011111111#16 {}) = .ok (.new 0xFF#8) ∧
    decode (.word 0b0010000000000001#16 {}) = .ok (.write 0x01#8) ∧
    decode (.word 0b0011000000000000#16 { seq0 := [0x01#8] }) = .ok (.writeAll [0x01#8]) ∧
    decode (.word 0b0100000000000000#16 {}) = .ok .finalize ∧
    decode (.word 0b0101000000000000#16 {}) = .ok (.payload .txf) ∧
    decode (.word 0b0101000100000000#16 {}) = .ok (.payload .rxf) :=
  ⟨rfl, rfl, rfl, rfl, rfl, rfl⟩

theorem test_decode_parser :
    decode (.word 0b0110000000000000#16 { seq0 := [0x01#8] }) = .ok (.strip [0x01#8]) ∧
    decode (.word 0b0111000000000000#16 { record := pad [0x01#8] }) = .ok (.parse (pad [0x01#8])) :=
  ⟨rfl, rfl⟩

theorem test_decode_device :
    decode (.word 0b1000000000000000#16 {}) = .ok .encInventory ∧
    decode (.word 0b1001000000000000#16 { seq0 := card }) = .ok (.encRead card) ∧
    decode (.word 0b1010000000000000#16 { seq0 := card, seq1 := [0xAA#8] }) = .ok (.encWrite card [0xAA#8]) ∧
    decode (.word 0b1011000000000000#16 { seq0 := [0x01#8] }) = .ok (.decInventory [0x01#8]) ∧
    decode (.word 0b1100000000000000#16 { seq0 := [0x01#8] }) = .ok (.decRead [0x01#8]) ∧
    decode (.word 0b1101000000000000#16 { seq0 := [0x01#8] }) = .ok (.decWrite [0x01#8]) ∧
    decode (.word 0b1110000000000000#16 { seq0 := [0x01#8] }) = .ok (.decRaw [0x01#8]) :=
  ⟨rfl, rfl, rfl, rfl, rfl, rfl, rfl⟩

theorem test_decode_reserved : decode (.word 0b1111001000000101#16 {}) = .ok (.reservedF 0b001000000101#12) := rfl

/-- The device opcodes of R50 to R52; another opcode names no command of the block's own (R55). -/
theorem test_decode_commands :
    commandOf 0b11111110#8 = some .inventory ∧ decode (.command .inventory {}) = .ok .cmdInventory ∧
    commandOf 0b00000010#8 = some .read ∧ decode (.command .read { seq0 := card }) = .ok (.cmdRead card) ∧
    commandOf 0b00000100#8 = some .write ∧
    decode (.command .write { seq0 := card, seq1 := [0xAA#8] }) = .ok (.cmdWrite card [0xAA#8]) ∧
    commandOf 0b00000011#8 = none :=
  ⟨rfl, rfl, rfl, rfl, rfl, rfl, rfl⟩

/-- V-E2 to V-E4. -/
theorem test_decode_rejects :
    decode (.word 0x4001#16 {}) = .error .strayImmediate ∧ decode (.word 0x1200#16 {}) = .error .reservedField ∧
    decode (.word 0x7100#16 {}) = .error .straySelect :=
  ⟨rfl, rfl, rfl⟩

/-- A payload with one fixed byte off is a custom command's (R50 to R52, R55). -/
theorem test_commandOfPayload_custom :
    commandOfPayload [0xFE#8, 0x00#8, 0x08#8] = none ∧
    commandOfPayload ([0x02#8] ++ card ++ [0x00#8, 0x09#8, 0x00#8]) = none ∧
    commandOfPayload ([0x04#8] ++ card ++ [0x00#8, 0x09#8, 0x00#8, 0xAA#8] ++ zeros 7) = none ∧
    commandOfPayload [] = none ∧ commandOfPayload [0x03#8] = none := by
  decide

/-- No two rows of spec/opcode_table.json accept one word: rows of one length differ in a bit that both fix. -/
theorem test_rows_disjoint (record : Record) :
    (([.crc16 [], .new 0#8, .write 0#8, .writeAll [], .finalize, .payload .txf, .strip [], .parse record, .encInventory,
      .encRead [], .encWrite [] [], .decInventory [], .decRead [], .decWrite [], .decRaw [], .reservedF 0#12, .cmdInventory,
      .cmdRead [], .cmdWrite [] []] : List Instr).map tableRow).Pairwise fun a b =>
      a.nbits ≠ b.nbits ∨ (a.mask &&& b.mask) &&& (a.pattern ^^^ b.pattern) ≠ 0 := by
  simp only [List.map, tableRow]
  decide

/-- Table words with operands of zeros: a command word, a device opcode, a word of code F, one that is too wide. -/
theorem test_decodeTableWord :
    decodeTableWord 16 0x9000 = some (.encRead (zeros 8)) ∧ decodeTableWord 16 0x2041 = some (.write 0x41#8) ∧
    decodeTableWord 8 0xFE = some .cmdInventory ∧ decodeTableWord 8 0x04 = some (.cmdWrite (zeros 8) []) ∧
    decodeTableWord 16 0xF0FE = some (.reservedF 0x0FE#12) ∧ decodeTableWord 16 0x14000 = none ∧
    decodeTableWord 16 0x4001 = none ∧
    decodeTableWord 8 0x03 = none := by
  decide

/-- The word placed after reset is the next to run (V-E6). -/
theorem test_withFetchWord :
    afterStep (State.reset.withFetchWord 16 0x10FF) =
      some { State.reset with txf := some ⟨[0xFF#8, 0x00#8, 0x00#8], false⟩, res := some (.ok .nothing) } := by
  decide

/-! ## The step -/

/-- V-E2: an ill-formed word is answered `Err(NotImplemented)`; the next move stays. -/
theorem test_step_illFormed :
    afterStep { finalState with input := [.issue (.word 0x4001#16 {}), .reset] } =
      some { finalState with input := [.reset], res := some (.err .notImplemented) } := by
  decide

theorem test_step_reset :
    afterStep { finalState with input := [.reset, .reset] } = some { State.reset with input := [.reset] } := by
  decide

/-! ## CRC16 (part C) -/

theorem test_crcBit :
    crcBit 0xFFFF#16 false = 0xEFDF#16 ∧ crcBit 0xFFFF#16 true = 0xFFFE#16 ∧ crcBit 0x0000#16 true = 0x1021#16 ∧
    crcBit 0x8000#16 true = 0x0000#16 ∧ crcBit 0x8000#16 false = 0x1021#16 ∧ crcBit 0x7FFF#16 true = 0xEFDF#16 := by
  decide

/-- V-C1 to V-C9, V-C12, V-C14. -/
theorem test_crc16 :
    crc16 [] = 0x0000#16 ∧ crc16 [0x00#8] = 0x1E0F#16 ∧ crc16 [0xFF#8] = 0x00FF#16 ∧ crc16 [0x01#8] = 0x0E2E#16 ∧
    crc16 [0x80#8] = 0x8F87#16 ∧ crc16 [0x41#8] = 0x46EA#16 ∧ crc16 [0x00#8, 0x02#8] = 0xC2B2#16 ∧
    crc16 [0x00#8, 0x02#8, 0x00#8] = 0x5501#16 ∧ crc16 [0x12#8, 0x34#8] = 0xF136#16 ∧
    crc16 [0x31#8, 0x32#8, 0x33#8, 0x34#8, 0x35#8, 0x36#8, 0x37#8, 0x38#8, 0x39#8] = 0xD64E#16 := by
  decide +kernel

/-- V-C13, V-C11. -/
theorem test_exec_crc16 :
    after (.crc16 (zeros 4)) finalState = some { finalState with res := some (.ok (.half 0x7B3F#16)) } ∧
    resOf (.crc16 [0x00#8, 0x05#8, 0xFE#8, 0x00#8, 0x07#8]) State.reset = some (.ok (.half 0xDA02#16)) := by
  decide +kernel

/-! ## The builder (part B) -/

/-- V-B1; V-B8's start byte. -/
theorem test_new :
    after (.new 0xD6#8) State.reset = some { openState [] with res := some (.ok .nothing) } ∧
    after (.new 0x00#8) finalState =
      some { finalState with txf := some ⟨[0x00#8, 0x00#8, 0x00#8], false⟩, res := some (.ok .nothing) } := by
  decide

/-- V-B11, V-B12. -/
theorem test_write_bound :
    after (.write 0x01#8) (openState (zeros 250)) = some { openState (zeros 250 ++ [0x01#8]) with res := some (.ok .nothing) } ∧
    after (.write 0x01#8) (openState (zeros 251)) = some { openState (zeros 251) with res := some (.err .overflow) } := by
  decide +kernel

/-- V-B16, V-B18. -/
theorem test_write_refused :
    after (.write 0x01#8) finalState = some { finalState with res := some (.err .writeAfterFinal) } ∧
    after (.write 0x01#8) State.reset = some { State.reset with res := some (.err .noFrame) } := by
  decide

/-- V-B5, V-B10, V-B13. -/
theorem test_writeAll_bound :
    after (.writeAll [0xFE#8, 0x00#8, 0x07#8]) (openState []) =
      some { openState [0xFE#8, 0x00#8, 0x07#8] with res := some (.ok .nothing) } ∧
    after (.writeAll [0x01#8, 0x02#8]) (openState (zeros 250)) = some { openState (zeros 250) with res := some (.err .overflow) } ∧
    after (.writeAll []) (openState (zeros 251)) = some { openState (zeros 251) with res := some (.ok .nothing) } := by
  decide +kernel

/-- V-B17, V-B18. -/
theorem test_writeAll_refused :
    after (.writeAll []) finalState = some { finalState with res := some (.err .writeAfterFinal) } ∧
    after (.writeAll [0x01#8]) State.reset = some { State.reset with res := some (.err .noFrame) } := by
  decide

/-- V-B2', V-B3, V-B6. -/
theorem test_finalize :
    (after .finalize (openState [])).map State.txf = some (some ⟨emptyFrame, true⟩) ∧
    resOf .finalize finalState = some (.ok (.bytes emptyFrame)) ∧
    resOf .finalize (openState [0xFE#8, 0x00#8, 0x07#8]) =
      some (.ok (.bytes [0xD6#8, 0x00#8, 0x05#8, 0xFE#8, 0x00#8, 0x07#8, 0xDA#8, 0x02#8])) := by
  decide +kernel

/-- V-B14, its length and length field; V-B18. -/
theorem test_finalize_bound :
    ((after .finalize (openState (zeros 250 ++ [0x01#8]))).bind State.txf).map (fun f =>
      (f.buf.length, slice f.buf 0 4, byteAt f.buf 253, f.final)) = some (256, [0xD6#8, 0x00#8, 0xFD#8, 0x00#8], 0x01#8, true) ∧
    resOf .finalize State.reset = some (.err .noFrame) := by
  decide +kernel

/-- V-B2, V-B4, V-B18; the parsed frame of V-Q4. -/
theorem test_payload :
    resOf (.payload .txf) (openState []) = some (.ok (.optBytes none)) ∧
    resOf (.payload .txf) (openState [0x00#8]) = some (.ok (.optBytes (some [0x00#8]))) ∧
    resOf (.payload .txf) finalState = some (.ok (.optBytes none)) ∧
    resOf (.payload .rxf) finalState = some (.ok (.optBytes (some [0x00#8]))) ∧
    resOf (.payload .rxf) { finalState with rxf := some ⟨[0xD6#8, 0x00#8, 0x1E#8, 0x0F#8], true⟩ } =
      some (.ok (.optBytes none)) ∧
    resOf (.payload .rxf) (openState []) = some (.err .noFrame) := by
  decide

/-! ## The parser (part Q) -/

/-- V-T1 to V-T6. -/
theorem test_strip :
    resOf (.strip []) finalState = some (.ok (.length 0)) ∧ strip [0x00#8, 0x00#8, 0x00#8] = 0 ∧
    strip [0x00#8, 0x01#8] = 2 ∧ strip [0x01#8, 0x00#8, 0x02#8, 0x00#8, 0x00#8] = 3 ∧ strip [0x20#8, 0x00#8] = 1 ∧
    resOf (.strip [0xFF#8]) finalState = some (.ok (.length 1)) := by
  decide

/-- V-Q1, V-Q4, V-Q11: passes, whatever the length field says. -/
theorem test_parse_passes :
    after (.parse (pad emptyFrame)) finalState = some { finalState with
      rxf := some ⟨emptyFrame, true⟩, res := some (.ok (.frame emptyFrame (classOf 0xD6#8) true)) } ∧
    resOf (.parse (pad [0xD6#8, 0x00#8, 0x1E#8, 0x0F#8])) State.reset =
      some (.ok (.frame [0xD6#8, 0x00#8, 0x1E#8, 0x0F#8] (classOf 0xD6#8) false)) ∧
    resOf (.parse (pad [0xD6#8, 0x00#8, 0x09#8, 0x55#8, 0x83#8, 0xAB#8])) State.reset =
      some (.ok (.frame [0xD6#8, 0x00#8, 0x09#8, 0x55#8, 0x83#8, 0xAB#8] (classOf 0xD6#8) false)) := by
  refine ⟨?_, ?_, ?_⟩
  · rw [parse_passes (b := emptyFrame) (by rw [parseRecord_pad (by decide) (by decide)]; decide +kernel)]
    rfl
  · rw [resOf, parse_passes (b := [0xD6#8, 0x00#8, 0x1E#8, 0x0F#8])
      (by rw [parseRecord_pad (by decide) (by decide)]; decide)]
    rfl
  · rw [resOf, parse_passes (b := [0xD6#8, 0x00#8, 0x09#8, 0x55#8, 0x83#8, 0xAB#8])
      (by rw [parseRecord_pad (by decide) (by decide)]; decide +kernel)]
    rfl

/-- V-Q5, V-Q7, V-Q12 and V-P5 (whose record is that of its five bytes before the zero): fails, and `RXF` is emptied. -/
theorem test_parse_fails :
    after (.parse (pad [0xD6#8, 0x00#8, 0x02#8])) finalState =
      some { finalState with rxf := none, res := some (.err .wrongChecksum) } ∧
    resOf (.parse (pad [0xD6#8, 0x00#8, 0x02#8, 0xC2#8])) finalState = some (.err .wrongChecksum) ∧
    resOf (.parse (pad [0xD6#8, 0x12#8])) finalState = some (.err .shortRecord) ∧
    resOf (.parse (pad [0xD6#8, 0x00#8, 0x03#8, 0x33#8, 0x60#8])) finalState = some (.err .wrongChecksum) := by
  refine ⟨?_, ?_, ?_, ?_⟩
  · exact parse_refuses (by rw [parseRecord_pad (by decide) (by decide)]; decide) _
  · rw [resOf, parse_refuses (k := .wrongChecksum) (by rw [parseRecord_pad (by decide) (by decide)]; decide)]
    rfl
  · rw [resOf, parse_refuses (k := .shortRecord) (by rw [parseRecord_pad (by decide) (by decide)]; decide)]
    rfl
  · rw [resOf, parse_refuses (k := .wrongChecksum) (by rw [parseRecord_pad (by decide) (by decide)]; decide)]
    rfl

/-! ## The encoders and the device commands (part S); offset 0 is the unstated start byte -/

/-- V-S9. -/
theorem test_encInventory :
    tailOf .encInventory finalState = some ([0x00#8, 0x05#8, 0xFE#8, 0x00#8, 0x07#8, 0xDA#8, 0x02#8], true) := by
  decide +kernel

/-- V-S10, V-S12. -/
theorem test_encRead :
    tailOf (.encRead card) State.reset =
      some ([0x00#8, 0x0E#8, 0x02#8] ++ card ++ [0x00#8, 0x09#8, 0x0C#8, 0x9D#8, 0xE1#8], true) ∧
    after (.encRead (card.take 7)) finalState = some { finalState with res := some (.err .wrongCardId) } := by
  decide +kernel

/-- V-S11, V-S11'. -/
theorem test_encWrite :
    tailOf (.encWrite card [0xAA#8, 0xBB#8]) State.reset =
      some ([0x00#8, 0x18#8, 0x04#8] ++ card ++ [0x00#8, 0x09#8, 0x00#8, 0xAA#8, 0xBB#8] ++ zeros 8 ++ [0xBD#8, 0x4D#8], true) ∧
    tailOf (.encWrite card []) State.reset =
      some ([0x00#8, 0x16#8, 0x04#8] ++ card ++ [0x00#8, 0x09#8, 0x00#8] ++ zeros 8 ++ [0xB1#8, 0x13#8], true) := by
  decide +kernel

/-- V-S11'', its length and length field; V-S12, V-S17. -/
theorem test_encWrite_bound :
    (tailOf (.encWrite card (List.replicate 231 0x5A#8)) State.reset).map (fun f => (f.1.length, slice f.1 0 3)) =
      some (255, [0x00#8, 0xFD#8, 0x04#8]) ∧
    after (.encWrite card (zeros 232)) finalState = some { finalState with res := some (.err .overflow) } ∧
    after (.encWrite (card.take 7) (zeros 300)) finalState = some { finalState with res := some (.err .wrongCardId) } := by
  decide +kernel

/-- V-S9's bytes, from the layout R50. -/
theorem test_cmdInventory :
    tailOf .cmdInventory finalState = some ([0x00#8, 0x05#8, 0xFE#8, 0x00#8, 0x07#8, 0xDA#8, 0x02#8], true) := by
  decide +kernel

/-- V-S10's bytes for an identifier of zeros, from the layout R51. -/
theorem test_cmdRead :
    tailOf (.cmdRead (zeros 8)) State.reset =
      some ([0x00#8, 0x0E#8, 0x02#8] ++ zeros 8 ++ [0x00#8, 0x09#8, 0x0C#8, 0xAF#8, 0x5A#8], true) ∧
    resOf (.cmdRead (card.take 7)) State.reset = some (.err .wrongCardId) := by
  decide +kernel

/-- V-S11's bytes, from the layout R52. -/
theorem test_cmdWrite :
    tailOf (.cmdWrite card [0xAA#8, 0xBB#8]) State.reset =
      some ([0x00#8, 0x18#8, 0x04#8] ++ card ++ [0x00#8, 0x09#8, 0x00#8, 0xAA#8, 0xBB#8] ++ zeros 8 ++ [0xBD#8, 0x4D#8], true) ∧
    resOf (.cmdWrite card (zeros 232)) State.reset = some (.err .overflow) := by
  decide +kernel

/-! ## The decoders (part S) -/

/-- The response of V-S1. -/
def twoCards : Bytes :=
  [0x00#8, 0x00#8, 0x00#8, 0x00#8, 0x02#8, 0x00#8, 0xE0#8, 0x04#8, 0x01#8, 0x00#8, 0x11#8, 0x22#8, 0x33#8, 0x44#8, 0x5A#8] ++
  [0xE0#8, 0x04#8, 0x01#8, 0x00#8, 0x55#8, 0x66#8, 0x77#8, 0x88#8, 0xA5#8]

/-- The header of V-S4. -/
def readHeader : Bytes :=
  [0x01#8, 0x00#8, 0x10#8, 0x11#8, 0x12#8, 0x13#8, 0x14#8, 0x15#8, 0x16#8, 0x17#8, 0x18#8, 0x19#8]

/-- V-S1. -/
theorem test_decInventory :
    after (.decInventory twoCards) finalState = some { finalState with res := some (.ok (.ids
      [[0xE0#8, 0x04#8, 0x01#8, 0x00#8, 0x11#8, 0x22#8, 0x33#8, 0x44#8],
        [0xE0#8, 0x04#8, 0x01#8, 0x00#8, 0x55#8, 0x66#8, 0x77#8, 0x88#8]])) } := by
  decide

/-- V-S2, V-S3, V-S3', V-S8 (a count of 57 does not wrap). -/
theorem test_decInventory_fails :
    resOf (.decInventory (zeros 5)) State.reset = some (.err .noCard) ∧
    resOf (.decInventory (twoCards.take 23)) State.reset = some (.err .wrongResponse) ∧
    resOf (.decInventory (zeros 4 ++ [0x01#8])) State.reset = some (.err .wrongResponse) ∧
    resOf (.decInventory (zeros 4)) State.reset = some (.err .wrongResponse) ∧
    resOf (.decInventory (zeros 4 ++ [0x39#8] ++ zeros 21)) State.reset = some (.err .wrongResponse) := by
  decide

/-- V-S4, V-S5, V-S6, V-S6', V-S6''. -/
theorem test_decRead :
    resOf (.decRead (readHeader ++ [0x48#8, 0x49#8, 0xAB#8, 0xCD#8] ++ zeros 3)) State.reset =
      some (.ok (.bytes [0x48#8, 0x49#8])) ∧
    resOf (.decRead (readHeader ++ [0x48#8, 0x49#8] ++ zeros 5)) State.reset = some (.ok (.bytes [])) ∧
    resOf (.decRead (zeros 3)) State.reset = some (.ok (.bytes [])) ∧
    resOf (.decRead (readHeader ++ [0x77#8, 0xAB#8, 0xCD#8])) State.reset = some (.ok (.bytes [0x77#8])) ∧
    resOf (.decRead (readHeader ++ [0x48#8, 0x00#8, 0x49#8, 0xAB#8, 0xCD#8, 0x00#8])) State.reset =
      some (.ok (.bytes [0x48#8, 0x00#8, 0x49#8])) ∧
    resOf (.decRead (readHeader ++ [0x48#8, 0x49#8, 0x4A#8, 0xAB#8] ++ zeros 3)) State.reset =
      some (.ok (.bytes [0x48#8, 0x49#8])) := by
  decide

/-- V-S7. -/
theorem test_decRead_fails :
    resOf (.decRead [0x00#8, 0x01#8, 0x00#8]) State.reset = some (.err .noCard) ∧
    resOf (.decRead [0x00#8, 0x06#8]) State.reset = some (.err .wrongResponse) := by
  decide

/-- V-S13 to V-S15. -/
theorem test_decWrite :
    resOf (.decWrite [0x00#8, 0x06#8, 0x00#8]) State.reset = some (.err .noCard) ∧
    resOf (.decWrite [0x01#8, 0x00#8, 0x01#8]) State.reset = some (.ok .nothing) ∧
    resOf (.decWrite [0x00#8, 0x00#8]) State.reset = some (.ok .nothing) ∧
    resOf (.decWrite [0x00#8]) State.reset = some (.err .wrongResponse) := by
  decide

/-- V-S16. -/
theorem test_decRaw :
    resOf (.decRaw [0x01#8, 0x02#8, 0x03#8]) State.reset = some (.ok (.bytes [0x01#8, 0x02#8, 0x03#8])) ∧
    resOf (.decRaw []) State.reset = some (.ok (.bytes [])) := by
  decide

/-- V-E1. -/
theorem test_reservedF :
    after (.reservedF 0#12) finalState = some { finalState with res := some (.err .notImplemented) } := by
  decide

/-- V-B7's bytes by the custom command path: opcode `0x12`, which the block has no command for, operand `0x34` (R55). -/
theorem test_customCommand :
    (match core.run 4 { finalState with input := issueAll (customCommandOperations 0xD5#8 0x12#8 [0x34#8]) } with
      | .next t => t.txf
      | .fault _ => none
      | .refused _ => none) = some ⟨[0xD5#8, 0x00#8, 0x04#8, 0x12#8, 0x34#8, 0xB4#8, 0x39#8], true⟩ := by
  decide +kernel

/-! ## The host's contract (part P) -/

/-- A session before any exchange. -/
def freshSession : Session := ⟨State.reset, []⟩

/-- An exchange in which the record of a frame arrives. -/
def reply (f : Bytes) : Exchange := ⟨none, .got f.length (pad f)⟩

/-- A reply whose frame passes PARSE and has a payload yields that payload. -/
theorem perform_reply {f : Bytes} (h : parseRecord (pad f) = .ok f) (long : 5 < f.length) (command : Bytes) (h₀ : Session) :
    (perform (reply f) command h₀).2 = .ok (slice f 3 (f.length - 2)) := by
  have some_payload : payloadOf ⟨f, true⟩ = some (slice f 3 (f.length - 2)) := by
    simp only [payloadOf, payloadEnd, if_true]
    rw [if_neg (by omega)]
    congr 2
    omega
  simp [perform, reply, show f.length ≠ 0 by omega, parseReply, h, some_payload]

/-- V-P3 and V-P4, the reply's payload; V-P3's second variant. -/
theorem test_perform :
    (perform (reply ([0xD6#8, 0x00#8, 0x1A#8] ++ twoCards ++ [0x88#8, 0xB1#8])) emptyFrame freshSession).2 = .ok twoCards ∧
    (perform (reply ([0xD6#8, 0x00#8, 0x07#8] ++ zeros 5 ++ [0xC6#8, 0x70#8])) emptyFrame freshSession).2 = .ok (zeros 5) := by
  constructor
  · rw [perform_reply (by rw [parseRecord_pad (by decide) (by decide)]; decide +kernel) (by decide)]
    decide
  · rw [perform_reply (by rw [parseRecord_pad (by decide) (by decide)]; decide +kernel) (by decide)]
    decide

/-- V-P7's first write: the whole operation ends in `NoCard`. R132: nothing queued. A custom
command whose frame breaks R14 is not transmitted (log 5). -/
theorem test_writeCard :
    (writeCard card [0xAA#8, 0xBB#8] (reply [0xD6#8, 0x00#8, 0x05#8, 0x00#8, 0x06#8, 0x00#8, 0xF8#8, 0x10#8])
      freshSession).2 = .error (.kind .noCard) ∧
    (readCard card (reply []) freshSession).2 = .error (.kind .emptyResponse) ∧
    (customCommand (reply []) ⟨finalState, []⟩).1.sent = [emptyFrame] ∧
    customCommand (reply []) ⟨{ State.reset with txf := some ⟨zeros 2, false⟩ }, []⟩ =
      (⟨{ State.reset with txf := some ⟨zeros 2, false⟩ }, []⟩, .error (.stop .openFrameOutOfBounds)) := by
  decide +kernel

/-! ## Witnesses: for each obligation with hypotheses, values that meet them, each clause at the edge of its range -/

theorem witness_DecodedWordIsTheEncodedWord : decode (.word 0x5100#16 {}) = .ok (.payload .rxf) := rfl

theorem witness_CommandPayloadReadsBack :
    (Instr.cmdWrite card (zeros 231)).wellFormed = true ∧
    commandPayload (.cmdWrite card (zeros 231)) = some (writePayload card (zeros 231)) ∧
    (Instr.cmdRead card).wellFormed = true ∧ commandPayload (.cmdRead card) = some (readPayload card) := by
  decide +kernel

/-- One word for each of the four ways to select nothing. -/
theorem witness_WordsThatSelectNothing :
    (0xF000#16).toNat / 4096 = 15 ∧ (0x1200#16).toNat / 512 % 8 ≠ 0 ∧
    ((0x7100#16).toNat / 256 % 2 = 1 ∧ (0x7100#16).toNat / 4096 ≠ 5) ∧
    ((0x4001#16).toNat % 256 ≠ 0 ∧ (0x4001#16).toNat / 4096 ≠ 1 ∧ (0x4001#16).toNat / 4096 ≠ 2) := by
  decide

theorem witness_StepRunsTheDecodedOperation :
    (State.reset.withFetchWord 16 0x4000).input = .issue (.word 0x4000#16 zeroArg) :: [] ∧
    decode (.word 0x4000#16 zeroArg) = .ok .finalize :=
  ⟨rfl, rfl⟩

theorem witness_StepAnswersAnUndecodedRequest :
    (State.reset.withFetchWord 16 0x4001).input = .issue (.word 0x4001#16 zeroArg) :: [] ∧
    decode (.word 0x4001#16 zeroArg) = .error .strayImmediate :=
  ⟨rfl, rfl⟩

/-- A move pending, and none. -/
theorem witness_MovesAreTakenInOrder :
    afterStep { finalState with input := [.reset] } = some State.reset ∧ afterStep State.reset = some State.reset ∧
    State.reset.input = [] := by
  decide

theorem witness_TwoOperationsAtOnceGetNoStep :
    ({ finalState with input := [.issueTwo (.command .inventory {}) (.word 0x4000#16 {})] } : State).input =
      .issueTwo (.command .inventory {}) (.word 0x4000#16 {}) :: [] :=
  rfl

theorem witness_ResetEventDiscardsBothFrames : ({ finalState with input := [.reset] } : State).input = .reset :: [] := rfl

/-- No frame; a finalized one; an open one of 253 and of 254 bytes. -/
theorem witness_WriteAppendsOneByte :
    State.reset.txf = none ∧ finalState.txf = some ⟨emptyFrame, true⟩ ∧
    ((openState (zeros 251)).txf = some ⟨[0xD6#8, 0x00#8, 0x00#8] ++ zeros 251, false⟩ ∧
      254 ≤ ([0xD6#8, 0x00#8, 0x00#8] ++ zeros 251 : Bytes).length) ∧
    ((openState (zeros 250)).txf = some ⟨[0xD6#8, 0x00#8, 0x00#8] ++ zeros 250, false⟩ ∧
      ([0xD6#8, 0x00#8, 0x00#8] ++ zeros 250 : Bytes).length < 254) := by
  decide +kernel

/-- No frame; a finalized one; 253 bytes and two more; 253 bytes and one more. -/
theorem witness_WriteAllAppendsAllOrNothing :
    State.reset.txf = none ∧ finalState.txf = some ⟨emptyFrame, true⟩ ∧
    ((openState (zeros 250)).txf = some ⟨[0xD6#8, 0x00#8, 0x00#8] ++ zeros 250, false⟩ ∧
      254 < ([0xD6#8, 0x00#8, 0x00#8] ++ zeros 250 : Bytes).length + (zeros 2).length) ∧
    ([0xD6#8, 0x00#8, 0x00#8] ++ zeros 250 : Bytes).length + (zeros 1).length ≤ 254 := by
  decide +kernel

theorem witness_WriteAllIsSuccessiveWrites :
    (openState []).txf = some ⟨[0xD6#8, 0x00#8, 0x00#8], false⟩ ∧
    [0xD6#8, 0x00#8, 0x00#8].length + (zeros 251).length ≤ 254 ∧ zeros 251 ≠ [] := by
  decide +kernel

/-- No frame; a finalized one; an open one without payload, and one with 251 payload bytes. -/
theorem witness_FinalizeMakesTheWireFrame :
    State.reset.txf = none ∧ finalState.txf = some ⟨emptyFrame, true⟩ ∧
    ((openState []).txf = some ⟨0xD6#8 :: 0x00#8 :: 0x00#8 :: [], false⟩ ∧ ([] : Bytes).length ≤ 251) ∧
    ((openState (zeros 251)).txf = some ⟨0xD6#8 :: 0x00#8 :: 0x00#8 :: zeros 251, false⟩ ∧ (zeros 251).length ≤ 251) := by
  decide +kernel

theorem witness_FinalizeIsIdempotent :
    (openState []).txf ≠ none ∧
    after .finalize (openState []) = some { State.reset with txf := some ⟨emptyFrame, true⟩, res := some (.ok (.bytes emptyFrame)) } := by
  decide +kernel

/-- Two bytes, and 255. -/
theorem witness_FinalizeStopsOutsideItsBound :
    ({ State.reset with txf := some ⟨zeros 2, false⟩ } : State).txf = some ⟨zeros 2, false⟩ ∧ (zeros 2).length < 3 ∧
    ({ State.reset with txf := some ⟨zeros 255, false⟩ } : State).txf = some ⟨zeros 255, false⟩ ∧ 254 < (zeros 255).length := by
  decide +kernel

/-- No frame; an open one of three bytes, and of four; a finalized one of five bytes, and of six. -/
theorem witness_PayloadIsThePayloadRegion :
    slotFrame .txf State.reset = none ∧
    (slotFrame .txf (openState []) = some ⟨[0xD6#8, 0x00#8, 0x00#8], false⟩ ∧ [0xD6#8, 0x00#8, 0x00#8].length ≤ 3) ∧
    (slotFrame .txf (openState [0x00#8]) = some ⟨[0xD6#8, 0x00#8, 0x00#8] ++ [0x00#8], false⟩ ∧ [0x00#8] ≠ []) ∧
    (slotFrame .txf finalState = some ⟨emptyFrame, true⟩ ∧ emptyFrame.length ≤ 5) ∧
    (slotFrame .rxf finalState = some ⟨[0xD6#8, 0x00#8, 0x03#8] ++ [0x00#8] ++ [0x66#8, 0x30#8], true⟩ ∧
      [0xD6#8, 0x00#8, 0x03#8].length = 3 ∧ [0x66#8, 0x30#8].length = 2) := by
  decide

theorem witness_FinalizedFrameIsImmutable :
    finalState.txf = some ⟨emptyFrame, true⟩ ∧ startsFrame (.write 0x01#8) = false ∧ startsFrame (.writeAll []) = false ∧
    startsFrame .finalize = false ∧ (after (.write 0x01#8) finalState).isSome ∧ (after (.writeAll []) finalState).isSome ∧
    (after .finalize finalState).isSome := by
  decide

theorem witness_StartByteNeverChanges :
    (openState []).txf = some ⟨[0xD6#8, 0x00#8, 0x00#8], false⟩ ∧ 3 ≤ [0xD6#8, 0x00#8, 0x00#8].length ∧
    startsFrame .finalize = false ∧ (after .finalize (openState [])).isSome := by
  decide

/-- The invariant holds of a state of each column of R83's table: no frame, a finalized one, an open one of 254 bytes. -/
theorem witness_BuilderErrorTable :
    State.reset.Inv ∧ finalState.Inv ∧ (openState (zeros 251)).Inv ∧
    ([0xD6#8, 0x00#8, 0x00#8] ++ zeros 251 : Bytes).length = 254 :=
  ⟨reset_inv, finalState_inv, openState_inv _ (by simp), by decide +kernel⟩

/-- A payload of 251 bytes; a frame whose last byte is not zero, and one whose last byte is (V-P5). -/
theorem witness_BuildThenParseRoundTrip :
    (zeros 251).length ≤ 251 ∧ byteAt (wireFrame 0xD6#8 [0x00#8]) 5 ≠ 0#8 ∧ byteAt (wireFrame 0xD6#8 [0x33#8]) 5 = 0#8 := by
  decide +kernel

/-- Records of one, three and four logical bytes, the last with a right and with a wrong checksum. -/
theorem witness_ParseOutcomes_ShortestRecords :
    strip (pad [0x01#8]).toList = 1 ∧ strip (pad [0xD6#8, 0x00#8, 0x02#8]).toList = 3 ∧
    (strip (pad [0xD6#8, 0x00#8, 0x1E#8, 0x0F#8]).toList = 4 ∧ be16 0x1E#8 0x0F#8 = crc16 [0x00#8]) ∧
    (strip (pad [0xD6#8, 0x00#8, 0x02#8, 0xC2#8]).toList = 4 ∧ be16 0x02#8 0xC2#8 ≠ crc16 [0x00#8]) :=
  ⟨strip_pad (by decide) (by decide), strip_pad (by decide) (by decide),
    ⟨strip_pad (by decide) (by decide), by decide⟩, strip_pad (by decide) (by decide), by decide⟩

/-- A byte of class OTHER exists, whatever the two class bytes are. -/
theorem witness_StartByteClasses : ∃ b, b ≠ Config.startSetup ∧ b ≠ Config.startData := by
  have three : ∀ x y : Byte, ∃ b, b ≠ y ∧ b ≠ x := by
    intro x y
    by_cases a : 0#8 = y ∨ 0#8 = x
    · by_cases b : 1#8 = y ∨ 1#8 = x
      · refine ⟨2#8, ?_, ?_⟩ <;> rintro rfl <;> revert a b <;> decide +revert
      · exact ⟨1#8, fun h => b (.inl h), fun h => b (.inr h)⟩
    · exact ⟨0#8, fun h => a (.inl h), fun h => a (.inr h)⟩
  exact three _ _

/-- V-Q6: the low checksum byte of the empty frame altered, still not zero. -/
theorem witness_AlteredChecksumIsWrong :
    (Frame.mk emptyFrame true).BuiltOk ∧ byteAt emptyFrame (emptyFrame.length - 1) ≠ 0#8 ∧
    [0xC2#8, 0xB3#8] ≠ emptyFrame.drop (emptyFrame.length - 2) ∧ 0xB3#8 ≠ 0#8 := by
  decide +kernel

/-- Identifiers of 7, 8 and 9 bytes; data of 231 and 232. -/
theorem witness_command_operands :
    (card.take 7).length ≠ 8 ∧ card.length = 8 ∧ (card ++ [0x09#8]).length ≠ 8 ∧ (zeros 231).length ≤ 231 ∧
    231 < (zeros 232).length := by
  decide +kernel

/-- Four bytes; five with count 0; 14 with count 1; 15 with count 1. -/
theorem witness_InventoryResponse :
    (zeros 4).length < 5 ∧ (5 ≤ (zeros 5).length ∧ (byteAt (zeros 5) 4).toNat = 0) ∧
    (5 ≤ (zeros 4 ++ [0x01#8] ++ zeros 9).length ∧ (byteAt (zeros 4 ++ [0x01#8] ++ zeros 9) 4).toNat ≠ 0 ∧
      (zeros 4 ++ [0x01#8] ++ zeros 9).length < 6 + 9 * 1) ∧
    6 + 9 * (byteAt (zeros 4 ++ [0x01#8] ++ zeros 10) 4).toNat ≤ (zeros 4 ++ [0x01#8] ++ zeros 10).length := by
  decide

/-- V-S8: 27 cards in 249 bytes. -/
theorem witness_InventoryIdentifiers :
    ∃ t ids, exec (.decInventory (zeros 4 ++ [0x1B#8] ++ zeros 244)) State.reset = .next t ∧ t.res = some (.ok (.ids ids)) ∧
      (zeros 4 ++ [0x1B#8] ++ zeros 244).length ≤ 251 :=
  ⟨_, _, rfl, by
    rw [show decodeInventory (zeros 4 ++ [0x1B#8] ++ zeros 244) = .ok (List.replicate 27 (zeros 8)) by decide +kernel]
    rfl, by decide +kernel⟩

/-- Two bytes; a status that is not zero; an adjusted end of −2 and of 12; one of 13. -/
theorem witness_ReadResponse :
    (zeros 2).length < 3 ∧ (3 ≤ [0x00#8, 0x01#8, 0x00#8].length ∧ byteAt [0x00#8, 0x01#8, 0x00#8] 1 ≠ 0#8) ∧
    (3 ≤ (zeros 3).length ∧ byteAt (zeros 3) 1 = 0#8 ∧ (strip (zeros 3) : Int) - 2 ≤ 12) ∧
    (byteAt (readHeader ++ [0xAB#8, 0xCD#8]) 1 = 0#8 ∧ (strip (readHeader ++ [0xAB#8, 0xCD#8]) : Int) - 2 ≤ 12) ∧
    (byteAt (readHeader ++ [0x77#8, 0xAB#8, 0xCD#8]) 1 = 0#8 ∧ 12 < (strip (readHeader ++ [0x77#8, 0xAB#8, 0xCD#8]) : Int) - 2) := by
  decide

theorem witness_ReadResponseYieldsTheData :
    readHeader.length = 12 ∧ byteAt readHeader 1 = 0#8 ∧ 0xCD#8 ≠ 0#8 := by
  decide

/-- One byte; two with a status that is not zero; two with status zero. -/
theorem witness_WriteResponse :
    (zeros 1).length < 2 ∧ (2 ≤ [0x00#8, 0xFF#8].length ∧ byteAt [0x00#8, 0xFF#8] 1 ≠ 0#8) ∧
    (2 ≤ (zeros 2).length ∧ byteAt (zeros 2) 1 = 0#8) := by
  decide

/-- Operands of 250 bytes; a reply with a payload of one byte (V-Q2). -/
theorem witness_CustomCommandPath :
    (zeros 250).length ≤ 250 ∧
    (∃ t, exec (.parse (pad zeroFrame)) finalState = .next t ∧ t.rxf = some ⟨zeroFrame, true⟩) ∧ 5 < zeroFrame.length := by
  refine ⟨by decide +kernel, ⟨_, rfl, ?_⟩, by decide⟩
  rw [show parseRecord (pad zeroFrame) = .ok zeroFrame by rw [parseRecord_pad (by decide) (by decide)]; decide +kernel]
  rfl

/-- Two different responses that agree where the inventory decoder looks, two where the read decoder looks, two where the
write decoder looks. -/
theorem witness_DecodersIgnoreUnusedBytes :
    ((zeros 4 ++ [0x01#8] ++ zeros 10).length = ([0xAA#8] ++ zeros 3 ++ [0x01#8, 0xEE#8] ++ zeros 8 ++ [0x5A#8]).length ∧
      byteAt (zeros 4 ++ [0x01#8] ++ zeros 10) 4 = byteAt ([0xAA#8] ++ zeros 3 ++ [0x01#8, 0xEE#8] ++ zeros 8 ++ [0x5A#8]) 4 ∧
      ∀ i < 1, ∀ k < 8, byteAt (zeros 4 ++ [0x01#8] ++ zeros 10) (6 + 9 * i + k) =
        byteAt ([0xAA#8] ++ zeros 3 ++ [0x01#8, 0xEE#8] ++ zeros 8 ++ [0x5A#8]) (6 + 9 * i + k)) ∧
    (byteAt (zeros 12) 1 = byteAt ([0x07#8] ++ zeros 11) 1 ∧ (zeros 12).length = ([0x07#8] ++ zeros 11).length ∧
      ∀ k, 12 ≤ k → byteAt (zeros 12) k = byteAt ([0x07#8] ++ zeros 11) k) ∧
    (byteAt [0x00#8, 0x06#8, 0x00#8] 1 = byteAt [0x01#8, 0x06#8, 0x02#8] 1 ∧
      [0x00#8, 0x06#8, 0x00#8].length = [0x01#8, 0x06#8, 0x02#8].length) := by
  refine ⟨by decide, ⟨rfl, rfl, fun k h => ?_⟩, rfl, rfl⟩
  rw [byteAt_of_length_le h, byteAt_of_length_le h]

/-- An error of a builder operation, and of PARSE. -/
theorem witness_AnErrorLeavesTheSlots :
    resOf (.write 0x01#8) finalState = some (.err .writeAfterFinal) ∧ resOf (.parse (pad [0x01#8])) finalState = some (.err .shortRecord) := by
  refine ⟨by decide, ?_⟩
  rw [resOf, parse_refuses (k := .shortRecord) (by rw [parseRecord_pad (by decide) (by decide)]; decide)]
  rfl

theorem witness_DecodersReadNoState :
    changesNoState (.decRead []) = true ∧ (∀ sel, Instr.decRead [] ≠ .payload sel) ∧ changesNoState (.crc16 []) = true ∧
    changesNoState (.strip []) = true :=
  ⟨rfl, fun _ h => (by cases h), rfl, rfl⟩

theorem witness_OperationsRaiseTheirKindsOnly : Raises .finalize State.reset .noFrame := ⟨_, rfl, rfl⟩

theorem witness_StatusCodes : exec .finalize State.reset = .next { State.reset with res := some (.err .noFrame) } := rfl

/-- Every premise on the state alone is the invariant: reset meets it, and two finalized frames, and the longest open one. -/
theorem witness_invariant : State.reset.Inv ∧ finalState.Inv ∧ (openState (zeros 251)).Inv :=
  ⟨reset_inv, finalState_inv, openState_inv _ (by simp)⟩

theorem witness_StepKeepsTheInvariants :
    (State.reset.withFetchWord 16 0x10FF).Inv ∧ (afterStep (State.reset.withFetchWord 16 0x10FF)).isSome := by
  refine ⟨⟨fun f hf => ?_, fun f hf => ?_⟩, by decide⟩
  · exact nomatch hf
  · exact nomatch hf

/-- Moves the host may make, pending on a state that meets the invariant. -/
theorem witness_RunsEnd :
    (State.reset.withFetchWord 16 0x10FF).Inv ∧ ∀ m ∈ (State.reset.withFetchWord 16 0x10FF).input, m.allowed = true :=
  ⟨witness_StepKeepsTheInvariants.1, fun m hm => by obtain rfl := List.mem_singleton.mp hm; rfl⟩

/-- A failed transmission; a failed reception; none queued; a record that fails; one without payload; one with payload. -/
theorem witness_PerformSequence :
    (Exchange.mk (some ⟨0⟩) (.failed ⟨1⟩)).transmitFailure = some ⟨0⟩ ∧
    ((Exchange.mk none (.failed ⟨1⟩)).transmitFailure = none ∧ (Exchange.mk none (.failed ⟨1⟩)).reception = .failed ⟨1⟩) ∧
    (reply []).reception = .got 0 (pad []) ∧
    ((reply [0x01#8]).reception = .got 1 (pad [0x01#8]) ∧ (1 : Nat) ≠ 0 ∧ Raises (.parse (pad [0x01#8])) finalState .shortRecord) ∧
    ((reply emptyFrame).reception = .got 5 (pad emptyFrame) ∧
      (∃ t, exec (.parse (pad emptyFrame)) finalState = .next t ∧ t.rxf = some ⟨emptyFrame, true⟩) ∧ emptyFrame.length ≤ 5) ∧
    ((reply zeroFrame).reception = .got 6 (pad zeroFrame) ∧
      (∃ t, exec (.parse (pad zeroFrame)) finalState = .next t ∧ t.rxf = some ⟨zeroFrame, true⟩) ∧ 5 < zeroFrame.length) := by
  refine ⟨rfl, ⟨rfl, rfl⟩, rfl, ⟨rfl, by decide, _, rfl, ?_⟩, ⟨rfl, ⟨_, rfl, ?_⟩, by decide⟩, rfl, ⟨_, rfl, ?_⟩, by decide⟩
  · rw [show parseRecord (pad [0x01#8]) = .error .shortRecord by rw [parseRecord_pad (by decide) (by decide)]; decide]
    rfl
  · rw [show parseRecord (pad emptyFrame) = .ok emptyFrame by rw [parseRecord_pad (by decide) (by decide)]; decide +kernel]
    rfl
  · rw [show parseRecord (pad zeroFrame) = .ok zeroFrame by rw [parseRecord_pad (by decide) (by decide)]; decide +kernel]
    rfl

end Sys2Proof.Tests
end

/-! PROOFS. The checksum family (40_checksum.md): the bit step, and CRC16 as a fold of it over the bits of its operand. -/

namespace Sys2Proof.Machine

/-! ## The bit step (R61) -/

/-- Both sides test the old top bit against the bit, the model as a Boolean and R61 as a proposition. -/
theorem crcBit_eq_ite (r : Half) (bit : Bool) :
    crcBit r bit = if r.getLsbD 15 ≠ bit then (r <<< 1) ^^^ 0x1021#16 else r <<< 1 := by
  simp only [crcBit, Config.crcPoly, bne_iff_ne]

/-- The shift clears bit 0 and bit 0 of the polynomial is set, so bit 0 says whether the polynomial was applied. -/
theorem crcBit_getLsbD_zero (r : Half) (bit : Bool) : (crcBit r bit).getLsbD 0 = (r.getLsbD 15 ^^ bit) := by
  have poly_bit_zero : (Config.crcPoly).getLsbD 0 = true := by decide
  rw [crcBit_getLsbD, poly_bit_zero]
  simp

/-- Settles O14, from the two halves of R61. -/
theorem crcBitStep : Obligations.CrcBitStep :=
  fun r bit => ⟨crcBit_eq_ite r bit, crcBit_getLsbD_zero r bit⟩

/-! ## The bits of a byte sequence (R60, R62) -/

/-- The bits of a byte, bit 7 first. -/
def msbFirst (x : Byte) : List Bool := [7, 6, 5, 4, 3, 2, 1, 0].map x.getLsbD

theorem msbFirst_eq (x : Byte) :
    msbFirst x = [x.getLsbD 7, x.getLsbD 6, x.getLsbD 5, x.getLsbD 4, x.getLsbD 3, x.getLsbD 2, x.getLsbD 1,
      x.getLsbD 0] := rfl

/-- The byte step feeds the byte's bits to the bit step (R62). -/
theorem crcByte_eq_foldl_crcBit (r : Half) (x : Byte) : crcByte r x = (msbFirst x).foldl crcBit r := by
  rw [msbFirst, List.foldl_map, crcByte]

/-- Byte by byte is bit by bit: the fold over bytes is the flat fold over their bits, from every register. -/
theorem crcFold_eq_foldl_crcBit (r : Half) (b : Bytes) : crcFold r b = (b.flatMap msbFirst).foldl crcBit r := by
  rw [crcFold, funext₂ crcByte_eq_foldl_crcBit, List.foldl_flatMap]

/-- CRC16 (R60), bit by bit. -/
theorem crc16_eq_foldl_crcBit (b : Bytes) :
    crc16 b = (b.flatMap msbFirst).foldl crcBit 0xFFFF#16 ^^^ 0xFFFF#16 := by
  rw [crc16_eq, crcFold_eq_foldl_crcBit]

/-! ## The operation (R60, R65) -/

/-- The word of all zeros selects CRC16 of the first sequence on `ARG`: every field test of R49 is on a constant. -/
theorem decode_word_zero (arg : Arg) : decode (.word 0x0000#16 arg) = .ok (.crc16 arg.seq0) := rfl

/-- CRC16 answers the checksum and changes nothing else. -/
theorem exec_crc16 (b : Bytes) (s : State) : exec (.crc16 b) s = .next (answer (.half (crc16 b)) s) := rfl

/-- Settles O15: the operation answers `crc16`, which is the flat fold of the bit step. -/
theorem checksumIsBitSerial : Obligations.ChecksumIsBitSerial := by
  intro b s
  refine ⟨fun arg => decode_word_zero { arg with seq0 := b }, ?_⟩
  rw [exec_crc16, crc16_eq_foldl_crcBit, answer, funext msbFirst_eq]

end Sys2Proof.Machine

/-! PROOFS. The frame builder family (41_frame_builder.md): NEW's word and its frame, and FINALIZE of a frame already finalized. -/

namespace Sys2Proof.Machine

/-! ## NEW (R70) -/

/-- The words `0x1000 | s` select NEW of `s`: the other fields are clear, and NEW is a row that uses `imm8` (R49, R53). -/
theorem decode_word_new (start : Byte) (arg : Arg) :
    decode (.word (0x1000#16 ||| start.setWidth 16) arg) = .ok (.new start) := by
  obtain ⟨op, rsv, sel, imm⟩ := (immediate_fields start).1
  simp [decode, decodeWord, selectOperation, op, rsv, sel, imm]

/-- NEW stores its frame, reading nothing of the state, and answers no value. -/
theorem exec_new (start : Byte) (s : State) :
    exec (.new start) s = .next (answer .nothing { s with txf := some (newFrame start) }) := rfl

/-- Settles O18, from NEW's word and NEW's answer. -/
theorem newStartsAnOpenFrame : Obligations.NewStartsAnOpenFrame :=
  fun start s => ⟨decode_word_new start, exec_new start s⟩

/-! ## FINALIZE twice (R75) -/

/-- Whatever frame FINALIZE is given, the one it makes is finalized. -/
@[simp] theorem finalizeFrame_isFinal (f : Frame) : (finalizeFrame f).final = true := by
  rcases f with ⟨buf, _ | _⟩ <;> rfl

/-- Where FINALIZE of a frame ends, it has stored and returned the finalized frame. -/
theorem eq_of_exec_finalize {s t : State} {f : Frame} (held : s.txf = some f) (h : exec .finalize s = .next t) :
    t = answer (.bytes (finalizeFrame f).buf) { s with txf := some (finalizeFrame f) } := by
  simp only [exec, execFinalize, held, finalizeSlot, settleFrame_ok] at h
  split at h
  · exact (Host.Outcome.next.inj h).symm
  · exact nomatch h

/-- FINALIZE of a finalized frame returns its bytes and stores nothing new. -/
theorem exec_finalize_of_final {s : State} {f : Frame} (held : s.txf = some f) (final : f.final = true) :
    exec .finalize s = .next (answer (.bytes f.buf) s) := by
  rcases s with ⟨txf, rxf, input, res⟩
  subst held
  simp [exec, execFinalize, withinBounds, finalizeSlot, finalizeFrame, final]

/-- Settles O23: the first FINALIZE leaves a finalized frame and its bytes on `RES`, and the second drives the same bytes
again. -/
theorem finalizeIsIdempotent : Obligations.FinalizeIsIdempotent := by
  intro s t slot h
  obtain ⟨f, held⟩ := Option.ne_none_iff_exists'.mp slot
  obtain rfl := eq_of_exec_finalize held h
  exact exec_finalize_of_final rfl (finalizeFrame_isFinal f)

end Sys2Proof.Machine

/-! PROOFS. The frame parser family (42_frame_parser.md): STRIP's word, its answer, and the logical length. -/

namespace Sys2Proof.Machine

/-! ## STRIP (R85) -/

/-- The word `0x6000` selects STRIP of the first sequence on `ARG`: every field test of R49 is on a constant. -/
theorem decode_word_strip (arg : Arg) : decode (.word 0x6000#16 arg) = .ok (.strip arg.seq0) := rfl

/-- STRIP answers the logical length and changes nothing else. -/
theorem exec_strip (b : Bytes) (s : State) : exec (.strip b) s = .next (answer (.length (strip b)) s) := rfl

/-- STRIP is idempotent: the logical bytes have no trailing zero left to strip. -/
theorem strip_logical (b : Bytes) : strip (slice b 0 (strip b)) = strip b := by
  rw [strip, logical_length]
  refine stripFrom_unique _ _ _ le_rfl ?_ fun i lo hi => absurd lo (by omega)
  by_cases empty : strip b = 0
  · exact .inl empty
  · right
    rw [byteAt_logical b (by omega)]
    exact strip_last b empty

/-- Settles O30: the `n` answered is `strip b`, and each property of R85 is a law of `strip`. -/
theorem stripFindsTheLogicalLength : Obligations.StripFindsTheLogicalLength := by
  intro b s
  refine ⟨fun arg => decode_word_strip { arg with seq0 := b }, strip b, exec_strip b s, strip_le b, ?_, ?_, ?_⟩
  · exact or_iff_not_imp_left.mpr (strip_last b)
  · exact fun k past _ => byteAt_of_strip_le past
  · exact strip_logical b

end Sys2Proof.Machine

/-! PROOFS. The device family (43_device_protocol.md): ENC_INVENTORY's word, its eight bytes, and its answer. -/

namespace Sys2Proof.Machine

/-! ## ENC_INVENTORY (R100) -/

/-- The word `0x8000` selects ENC_INVENTORY, which reads nothing of `ARG`. -/
theorem decode_word_encInventory (arg : Arg) : decode (.word 0x8000#16 arg) = .ok .encInventory := rfl

/-- The checksum covers the length field and the payload but not the start byte, so it is the constant `0xDA02`. -/
theorem crc16_inventory : crc16 [0x00#8, 0x05#8, 0xFE#8, 0x00#8, 0x07#8] = 0xDA02#16 := by decide +kernel

/-- The inventory command on the wire: start byte, length 5, payload, checksum. -/
theorem wireFrame_inventory (start : Byte) :
    wireFrame start inventoryPayload = [start, 0x00#8, 0x05#8, 0xFE#8, 0x00#8, 0x07#8, 0xDA#8, 0x02#8] := by
  have covered : bigEndian (BitVec.ofNat 16 (2 + inventoryPayload.length)) ++ inventoryPayload =
      [0x00#8, 0x05#8, 0xFE#8, 0x00#8, 0x07#8] := by decide
  rw [wireFrame, covered, crc16_inventory]
  rfl

/-- ENC_INVENTORY leaves the finalized inventory frame in `TXF` and its bytes on `RES`. -/
theorem exec_encInventory (s : State) :
    exec .encInventory s = .next (answer (.bytes (wireFrame Config.startData inventoryPayload))
      { s with txf := some ⟨wireFrame Config.startData inventoryPayload, true⟩ }) := by
  rw [exec, execEncInventory, encodeInventory_eq, settleFrame_ok]

/-- Settles O37: the encoder's expansion is the wire frame of the inventory payload, and its bytes are those of R100. -/
theorem inventoryCommandFrame : Obligations.InventoryCommandFrame := by
  intro s
  refine ⟨decode_word_encInventory, ?_⟩
  rw [exec_encInventory, wireFrame_inventory]
  rfl

end Sys2Proof.Machine

/-! PROOFS. Decoding and encoding (30_encoding.md): the word of every row, what a decoded word's fields can be, the two round trips, and the payload layouts read back. -/

namespace Sys2Proof.Machine

/-! ## The words that carry operand bits (R49, R53, R71) -/

/-- The words `0x2000 | b` select WRITE of `b`: the other fields are clear, and WRITE is a row that uses `imm8`. -/
theorem decode_word_write (b : Byte) (arg : Arg) :
    decode (.word (0x2000#16 ||| b.setWidth 16) arg) = .ok (.write b) := by
  obtain ⟨op, rsv, sel, imm⟩ := (immediate_fields b).2
  simp [decode, decodeWord, selectOperation, op, rsv, sel, imm]

/-- A word of code F selects the reserved row before any other field is tested. -/
theorem decode_word_reserved (low : BitVec 12) (arg : Arg) :
    decode (.word (0xF000#16 ||| low.setWidth 16) arg) = .ok (.reservedF low) := by
  obtain ⟨op, kept⟩ := reserved_fields low
  simp only [decode, decodeWord, op, if_true, selectOperation, kept]
  rfl

/-- Settles O3: the words with operand bits by their fields; on a constant word every field test computes. -/
theorem decodeOfEncodeIsTheInstruction : Obligations.DecodeOfEncodeIsTheInstruction := by
  intro i
  cases i with
  | new start => exact decode_word_new start {}
  | write b => exact decode_word_write b {}
  | reservedF low => exact decode_word_reserved low {}
  | payload sel => cases sel <;> rfl
  | crc16 | writeAll | finalize | strip | parse | encInventory | encRead | encWrite => rfl
  | decInventory | decRead | decWrite | decRaw | cmdInventory | cmdRead | cmdWrite => rfl

/-- Where the low bits of a constant are clear, adding what fits in them is or-ing it. -/
theorem add_eq_or_of_low_clear (hi : Half) (k n : Nat) (x : BitVec n) (le : n ≤ 16) (h : hi.toNat = k <<< n) :
    hi + x.setWidth 16 = hi ||| x.setWidth 16 := by
  have sum := or_toNat_of_lt hi k n x le h
  have fits := (hi ||| x.setWidth 16).isLt
  have kept : (x.setWidth 16).toNat = x.toNat := by
    rw [BitVec.toNat_setWidth, Nat.mod_eq_of_lt (by omega)]
  rw [BitVec.toNat_eq, BitVec.toNat_add, kept, sum, Nat.mod_eq_of_lt (by omega)]

/-- Settles O1: every field test of R49 is on a constant. -/
theorem wordsWrittenOutDecode : Obligations.WordsWrittenOutDecode :=
  fun _ => ⟨rfl, rfl, rfl, rfl, rfl, rfl, rfl, rfl, rfl, rfl, rfl, rfl, rfl, rfl, rfl, rfl, rfl⟩

/-- Settles O2: the three rows with operand bits by their fields, the others by computation. -/
theorem legalWordsSelectTheirOperation : Obligations.LegalWordsSelectTheirOperation := by
  intro arg imm low
  rw [add_eq_or_of_low_clear 0x1000#16 16 8 imm (by decide) (by decide),
    add_eq_or_of_low_clear 0x2000#16 32 8 imm (by decide) (by decide),
    add_eq_or_of_low_clear 0xF000#16 15 12 low (by decide) (by decide)]
  exact ⟨rfl, decode_word_new imm arg, decode_word_write imm arg, rfl, rfl, rfl, rfl, rfl, rfl, rfl, rfl, rfl, rfl, rfl,
    rfl, rfl, decode_word_reserved low arg⟩

/-! ## What a decoded word is (R49, R53) -/

/-- A word that decodes selects by its `op`, and is of code F or has no field set that its row does not use. -/
theorem eq_of_decodeWord_ok {w : Half} {arg : Arg} {i : Instr} (h : decodeWord w arg = .ok i) :
    i = selectOperation w arg ∧
      (w.toNat / 4096 = 15 ∨
        (w.toNat / 512 % 8 = 0 ∧ (w.toNat / 256 % 2 = 1 → w.toNat / 4096 = 5) ∧
          (w.toNat % 256 ≠ 0 → w.toNat / 4096 = 1 ∨ w.toNat / 4096 = 2))) := by
  simp only [decodeWord, ne_eq, opField_eq_iff, rsvField_eq_iff, selField_iff, immField_eq_iff, BitVec.toNat_ofNat,
    Nat.reducePow, Nat.reduceMod] at h
  split_ifs at h with reserved rsv sel imm
  · exact ⟨(Except.ok.inj h).symm, .inl reserved⟩
  · exact ⟨(Except.ok.inj h).symm, .inr (by omega)⟩

/-- PAYLOAD's word has its slot in `sel` and no other field set. -/
theorem selector_encode_payload {w : Half} (arg : Arg) (code : (opField w).toNat = 5) (rsv : w.toNat / 512 % 8 = 0)
    (imm : w.toNat % 256 = 0) :
    (encode (selectOperation w arg)).nbits = 16 ∧ (encode (selectOperation w arg)).selector = w.toNat := by
  have op := opField_toNat w
  have sel := selField_iff w
  rw [code] at op
  by_cases rxf : selField w = true
  · have word : encode (selectOperation w arg) = .word 0x5100#16 {} := by
      simp only [selectOperation, code, rxf, if_true, encode]
    have value : w.toNat = 0x5100 := by have := sel.mp rxf; omega
    rw [word, value]
    exact ⟨rfl, rfl⟩
  · have word : encode (selectOperation w arg) = .word 0x5000#16 {} := by
      simp only [selectOperation, code, rxf, Bool.false_eq_true, if_false, encode]
    have value : w.toNat = 0x5000 := by have := mt sel.mpr rxf; omega
    rw [word, value]
    exact ⟨rfl, rfl⟩

/-- The operation a word selects, encoded again, has the word's own value: by the code, the fields a row does not use being
clear. -/
theorem selector_encode_of_decodeWord {w : Half} {arg : Arg} {i : Instr} (h : decodeWord w arg = .ok i) :
    (encode i).nbits = 16 ∧ (encode i).selector = w.toNat := by
  obtain ⟨rfl, fields⟩ := eq_of_decodeWord_ok h
  have op := opField_toNat w
  have op_lt := (opField w).isLt
  by_cases payload : (opField w).toNat = 5
  · exact selector_encode_payload arg payload (by omega) (by omega)
  have imm := immField_toNat w
  have low : (w.extractLsb' 0 12).toNat = w.toNat % 4096 := by simp
  have new := (immediate_toNat (immField w)).1
  have write := (immediate_toNat (immField w)).2
  have reserved := reserved_toNat (w.extractLsb' 0 12)
  generalize code : (opField w).toNat = n at op op_lt payload
  interval_cases n
  all_goals simp only [selectOperation, code, encode, Request.nbits, Request.selector, BitVec.toNat_ofNat,
    BitVec.truncate_eq_setWidth, new, write, reserved, true_and]
  all_goals omega

/-- The opcode bytes of the three device commands are distinct, and no other byte names one. -/
theorem commandOf_eq_some_iff (opcode : Byte) (c : DeviceCommand) : commandOf opcode = some c ↔ opcode = c.opcode := by
  constructor
  · intro h
    simp only [commandOf] at h
    split_ifs at h with inventory read write
    all_goals cases h
    · exact inventory
    · exact read
    · exact write
  · rintro rfl
    exact commandOf_opcode c

/-- Settles O4: a command word by its fields, a device command by its opcode. -/
theorem decodedWordIsTheEncodedWord : Obligations.DecodedWordIsTheEncodedWord := by
  refine ⟨fun r i h => ?_, commandOf_eq_some_iff⟩
  cases r with
  | word w arg => exact selector_encode_of_decodeWord h
  | command c arg =>
    obtain rfl : commandInstr c arg = i := Except.ok.inj h
    cases c <;> exact ⟨rfl, rfl⟩

/-! ## The payload layouts read back (R51, R52) -/

/-- The read layout: an identifier of 8 bytes puts the three fixed bytes where the reader tests them. -/
theorem commandOfPayload_read {id : Bytes} (n : id.length = 8) :
    commandOfPayload (readPayload id) = some (.cmdRead id) := by
  have op : commandOf 0x02#8 = some .read := rfl
  have ident : (id ++ [0x00#8, 0x09#8, 0x0C#8]).take 8 = id := List.take_left' n
  have fixed : (id ++ [0x00#8, 0x09#8, 0x0C#8]).drop 8 = [0x00#8, 0x09#8, 0x0C#8] := List.drop_left' n
  simp only [readPayload, List.cons_append, List.nil_append, commandOfPayload, op]
  rw [if_pos ⟨by simp [n], fixed⟩, ident]

/-- The write layout: the data lies between the fixed bytes and the eight zeros, so its length is that of the payload less 19. -/
theorem commandOfPayload_write {id data : Bytes} (n : id.length = 8) (d : data.length ≤ 231) :
    commandOfPayload (writePayload id data) = some (.cmdWrite id data) := by
  have op : commandOf 0x04#8 = some .write := rfl
  have layout : writePayload id data = 0x04#8 :: (id ++ ([0x00#8, 0x09#8, 0x00#8] ++ (data ++ zeros 8))) := by
    simp [writePayload]
  generalize rest : id ++ ([0x00#8, 0x09#8, 0x00#8] ++ (data ++ zeros 8)) = p at layout
  have len : p.length = data.length + 19 := by simp [← rest, n]; omega
  have ident : p.take 8 = id := by rw [← rest]; exact List.take_left' n
  have fixed : p.drop 8 = [0x00#8, 0x09#8, 0x00#8] ++ (data ++ zeros 8) := by rw [← rest]; exact List.drop_left' n
  have body : p.drop 11 = data ++ zeros 8 := by rw [show 11 = 8 + 3 from rfl, ← List.drop_drop, fixed]; rfl
  have tail : p.drop (data.length + 11) = zeros 8 := by rw [Nat.add_comm, ← List.drop_drop, body, List.drop_left]
  simp only [layout, commandOfPayload, op, len, ident, fixed, body]
  rw [if_pos ⟨by omega, by simpa using d, rfl, by simpa using tail⟩]
  simp

/-- Settles O5: only the three device commands have a layout, and well-formedness gives its lengths. -/
theorem commandPayloadReadsBack : Obligations.CommandPayloadReadsBack := by
  intro i p wf layout
  cases i with
  | cmdInventory => cases layout; rfl
  | cmdRead id =>
    cases layout
    exact commandOfPayload_read (by simpa [Instr.wellFormed] using wf)
  | cmdWrite id data =>
    cases layout
    obtain ⟨n, d⟩ : id.length = 8 ∧ data.length ≤ 231 := by simpa [Instr.wellFormed] using wf
    exact commandOfPayload_write n d
  | _ => exact nomatch layout

end Sys2Proof.Machine

/-! PROOFS. The step and the run (20_memory.md R33, R37; 70_reset_and_hazards.md R155): what a move does, the invariants R14 and R15 along every step, and how a run ends. -/

namespace Sys2Proof.Machine

/-! ## One move -/

/-- Issuing takes the request off the pending moves first. -/
theorem step_of_issue {s : State} {r : Request} {rest : List HostMove} (h : s.input = .issue r :: rest) :
    step s = issue r { s with input := rest } := by
  simp only [step, takeMove, h, runMove]

theorem issue_of_decode_ok {r : Request} {i : Instr} (h : decode r = .ok i) (s : State) : issue r s = exec i s := by
  simp only [issue, h]

theorem issue_of_decode_error {r : Request} {j : Reject} (h : decode r = .error j) (s : State) :
    issue r s = .next (raise .notImplemented s) := by
  simp only [issue, h]

/-- The request a host builds for an operation runs that operation. -/
theorem step_of_issue_encode {s : State} {i : Instr} {rest : List HostMove} (h : s.input = .issue (encode i) :: rest) :
    step s = exec i { s with input := rest } := by
  rw [step_of_issue h, issue_of_decode_ok (decodeOfEncodeIsTheInstruction i)]

/-- Settles O8: the decoder's answer is what `issue` runs. -/
theorem stepRunsTheDecodedOperation : Obligations.StepRunsTheDecodedOperation :=
  fun _ _ _ _ pending d => (step_of_issue pending).trans (issue_of_decode_ok d _)

/-- Settles O9: only a command word is rejected, and a rejected request is answered `NotImplemented`. -/
theorem stepAnswersAnUndecodedRequest : Obligations.StepAnswersAnUndecodedRequest :=
  fun _ _ _ _ pending d =>
    ⟨exists_word_of_decode_error d, (step_of_issue pending).trans (issue_of_decode_error d _)⟩

/-- Settles O11: the step refuses the move whatever the two requests are. -/
theorem twoOperationsAtOnceGetNoStep : Obligations.TwoOperationsAtOnceGetNoStep := by
  intro s a b rest pending
  simp only [step, takeMove, pending, runMove]

/-- Settles O12: the reset state by its definition. -/
theorem resetLeavesNoFrame : Obligations.ResetLeavesNoFrame := ⟨rfl, rfl⟩

/-- Settles O13: the reset event is the reset state with the later moves still pending. -/
theorem resetEventDiscardsBothFrames : Obligations.ResetEventDiscardsBothFrames := by
  intro s rest pending
  simp only [step, takeMove, pending, runMove, resetEvent, State.reset]

/-- The reserved row raises `NotImplemented`, whatever its low bits are. -/
theorem exec_reservedF (low : BitVec 12) (s : State) : exec (.reservedF low) s = .next (raise .notImplemented s) := rfl

/-- Settles O7: raising an error changes `RES` only. -/
theorem reservedCodeIsNotImplemented : Obligations.ReservedCodeIsNotImplemented := exec_reservedF

/-- A word of code F selects the reserved row. -/
theorem selectOperation_of_code_fifteen {w : Half} (arg : Arg) (h : w.toNat / 4096 = 15) :
    selectOperation w arg = .reservedF (w.extractLsb' 0 12) := by
  simp only [selectOperation, opField_toNat, h]

/-- Settles O6: such a word is rejected, or is of code F and runs the reserved row, and both answer `NotImplemented`. -/
theorem wordsThatSelectNothing : Obligations.WordsThatSelectNothing := by
  intro s cw arg rest pending illFormed
  rw [step_of_issue pending]
  cases d : decode (.word cw arg) with
  | error j => exact issue_of_decode_error d _
  | ok i =>
    obtain ⟨selected, fields⟩ := eq_of_decodeWord_ok d
    have reserved : cw.toNat / 4096 = 15 := by omega
    rw [issue_of_decode_ok d, selected, selectOperation_of_code_fifteen arg reserved]
    rfl

/-- With no move pending the block waits. -/
theorem step_of_no_move {s : State} (h : s.input = []) : step s = .next s := by
  simp only [step, takeMove, h]

/-- A move leaves the list before its effect, and no effect touches the list. -/
theorem step_input {s t : State} (h : step s = .next t) : t.input = s.input.tail := by
  obtain ⟨idle, e⟩ | ⟨_, _, i, pending, -, e⟩ | ⟨_, _, j, pending, -, e⟩ | ⟨_, _, _, -, e⟩ | ⟨_, pending, e⟩ := step_cases s
  all_goals rw [e] at h
  · cases h; rw [idle]; rfl
  · rw [exec_input h, pending]; rfl
  · cases h; rw [pending]; rfl
  · exact nomatch h
  · cases h; rw [pending]; rfl

/-- Settles O10: the move taken is the head of the list, and waiting changes nothing. -/
theorem movesAreTakenInOrder : Obligations.MovesAreTakenInOrder := by
  intro s t h
  refine ⟨step_input h, fun idle => ?_⟩
  rw [step_of_no_move idle] at h
  exact (Host.Outcome.next.inj h).symm

/-! ## The invariants (R14, R15) -/

/-- The invariants speak of the slots only. -/
theorem State.Inv.of_slots {s t : State} (inv : s.Inv) (tx : t.txf = s.txf) (rx : t.rxf = s.rxf) : t.Inv :=
  ⟨by rw [tx]; exact inv.tx, by rw [rx]; exact inv.rx⟩

theorem inv_of_no_frame {s : State} (tx : s.txf = none) (rx : s.rxf = none) : s.Inv := by
  refine ⟨fun f held => ?_, fun f held => ?_⟩
  · rw [tx] at held
    exact nomatch held
  · rw [rx] at held
    exact nomatch held

/-- Settles O56: empty slots meet any invariant. -/
theorem resetMeetsTheInvariants : Obligations.ResetMeetsTheInvariants := inv_of_no_frame rfl rfl

/-- From a state that meets the invariants an operation ends: FINALIZE alone can stop, and not on a frame of R14. -/
theorem exists_exec_next {s : State} (inv : s.Inv) (i : Instr) : ∃ t, exec i s = .next t := by
  cases exec_shape i s with
  | stops _ w _ => rw [withinBounds_of_txOk inv.tx] at w; exact nomatch w
  | value r e => exact ⟨_, e⟩
  | frame r v _ e => exact ⟨_, e⟩
  | parse record _ e => exact ⟨_, e⟩

/-- Settles O54: every operation ends, one that ends drives `RES`, and none touches the pending moves. -/
theorem everyOperationAnswers : Obligations.EveryOperationAnswers := by
  intro i s inv
  obtain ⟨t, e⟩ := exists_exec_next inv i
  obtain ⟨r, driven⟩ := Option.isSome_iff_exists.mp (exec_res_isSome e)
  exact ⟨t, r, e, driven, exec_input e⟩

/-- An operation keeps the invariants: a frame it stores in `TXF` meets R14, one it stores in `RXF` meets R15. -/
theorem exec_keeps_inv {i : Instr} {s t : State} (inv : s.Inv) (h : exec i s = .next t) : t.Inv := by
  cases exec_shape i s with
  | stops _ _ e => rw [e] at h; exact nomatch h
  | value r e =>
    rw [e] at h; cases h
    exact inv.of_slots (settleValue_txf r s) (settleValue_rxf r s)
  | frame r v keeps e =>
    rw [e] at h; cases h
    cases r with
    | error k => exact inv.of_slots rfl rfl
    | ok f =>
      refine ⟨fun g held => ?_, inv.rx⟩
      cases held
      exact keeps f rfl inv.tx
  | parse record _ e =>
    rw [e] at h; cases h
    cases parsed : parseRecord record with
    | error k => exact ⟨inv.tx, fun _ held => nomatch held⟩
    | ok logical =>
      refine ⟨inv.tx, fun g held => ?_⟩
      cases held
      exact parseRecord_rxOk parsed

/-- Settles O55: a step runs an operation, raises an error, resets or waits. -/
theorem stepKeepsTheInvariants : Obligations.StepKeepsTheInvariants := by
  intro s t inv h
  obtain ⟨-, e⟩ | ⟨r, rest, i, -, -, e⟩ | ⟨r, rest, j, -, -, e⟩ | ⟨a, b, rest, -, e⟩ | ⟨rest, -, e⟩ := step_cases s
  all_goals rw [e] at h
  · cases h; exact inv
  · exact exec_keeps_inv (inv.of_slots (t := { s with input := rest }) rfl rfl) h
  · cases h; exact inv.of_slots rfl rfl
  · exact nomatch h
  · cases h; exact inv_of_no_frame rfl rfl

/-! ## Runs -/

theorem core_run_zero (s : State) : core.run 0 s = .next s := rfl

theorem core_run_succ (n : Nat) {s t : State} (h : step s = .next t) : core.run (n + 1) s = core.run n t := by
  simp only [Host.Core.run, show core.step s = .next t from h]

/-- From a state that meets the invariants no step faults. -/
theorem step_ne_fault {s : State} (inv : s.Inv) (r : Fault) : step s ≠ .fault r := by
  intro h
  obtain ⟨-, e⟩ | ⟨_, rest, i, -, -, e⟩ | ⟨_, rest, j, -, -, e⟩ | ⟨a, b, rest, -, e⟩ | ⟨rest, -, e⟩ := step_cases s
  all_goals rw [e] at h
  case inr.inl =>
    obtain ⟨t, ends⟩ := exists_exec_next (inv.of_slots (t := { s with input := rest }) rfl rfl) i
    rw [ends] at h
    exact nomatch h
  all_goals exact nomatch h

/-- Settles O57, by induction on the length of the run: a step keeps the invariants, and under them none faults. -/
theorem runsNeverFault : Obligations.RunsNeverFault := by
  intro s n r inv
  induction n generalizing s with
  | zero => exact fun h => nomatch h
  | succ n ih =>
    cases e : step s with
    | next t => rw [core_run_succ n e]; exact ih t (stepKeepsTheInvariants s t inv e)
    | fault r' => exact absurd e (step_ne_fault inv r')
    | refused r' => simp [Host.Core.run, show core.step s = .refused r' from e]

/-- Where the host never issues two operations at once, a state that meets the invariants has a next one. -/
theorem exists_step_next {s : State} (inv : s.Inv) (ok : ∀ m ∈ s.input, m.allowed = true) : ∃ t, step s = .next t := by
  obtain ⟨-, e⟩ | ⟨_, rest, i, -, -, e⟩ | ⟨_, rest, j, -, -, e⟩ | ⟨a, b, rest, pending, -⟩ | ⟨rest, -, e⟩ := step_cases s
  · exact ⟨s, e⟩
  · rw [e]; exact exists_exec_next (inv.of_slots (t := { s with input := rest }) rfl rfl) i
  · exact ⟨_, e⟩
  · exact nomatch ok (.issueTwo a b) (by simp [pending])
  · exact ⟨_, e⟩

/-- A step that takes an operation drives `RES`. -/
theorem step_issue_res_isSome {s t : State} {r : Request} {rest : List HostMove} (pending : s.input = .issue r :: rest)
    (h : step s = .next t) : t.res.isSome := by
  rw [step_of_issue pending] at h
  cases d : decode r with
  | ok i => rw [issue_of_decode_ok d] at h; exact exec_res_isSome h
  | error j => rw [issue_of_decode_error d] at h; cases h; rfl

/-- An operation's result is the next observed. -/
theorem results_of_issue (n : Nat) {s t : State} {r : Request} {rest : List HostMove}
    (pending : s.input = .issue r :: rest) (h : step s = .next t) :
    results (n + 1) s = t.res.toList ++ results n t := by
  simp only [results, pending, h]

/-- The reset event has no result of its own. -/
theorem results_of_reset (n : Nat) {s t : State} {rest : List HostMove} (pending : s.input = .reset :: rest)
    (h : step s = .next t) : results (n + 1) s = results n t := by
  simp only [results, pending, h]

/-- Settles O58, by induction on the pending moves: each step takes one, and adds a result when it issues an operation. -/
theorem runsEnd : Obligations.RunsEnd := by
  intro s
  generalize pending : s.input = moves
  intro inv ok
  induction moves generalizing s with
  | nil => exact ⟨s, core_run_zero s, pending, step_of_no_move pending, rfl⟩
  | cons m rest ih =>
    obtain ⟨t, e⟩ := exists_step_next inv (by rw [pending]; exact ok)
    have later : t.input = rest := by rw [step_input e, pending]; rfl
    obtain ⟨u, runs, done, stays, count⟩ :=
      ih t later (stepKeepsTheInvariants s t inv e) fun m' h => ok m' (List.mem_cons_of_mem m h)
    refine ⟨u, (core_run_succ _ e).trans runs, done, stays, ?_⟩
    cases m with
    | issue r =>
      obtain ⟨x, driven⟩ := Option.isSome_iff_exists.mp (step_issue_res_isSome pending e)
      have kept : (HostMove.issue r :: rest).filter (· != .reset) = .issue r :: rest.filter (· != .reset) := rfl
      rw [List.length_cons, results_of_issue _ pending e, driven, kept, List.length_cons, ← count]
      simp [Nat.add_comm]
    | issueTwo a b => exact nomatch ok (.issueTwo a b) List.mem_cons_self
    | reset =>
      have dropped : (HostMove.reset :: rest).filter (· != .reset) = rest.filter (· != .reset) := rfl
      rw [List.length_cons, results_of_reset _ pending e, dropped, ← count]

end Sys2Proof.Machine

/-! PROOFS. The checksum's algebra (40_checksum.md): the byte step splits into the two halves of its register, which gives the table form R63 and the residue law R67. -/

namespace Sys2Proof.Machine

/-- Shifting a register up by a byte keeps its low byte only. -/
theorem lo8_shifted (r : Half) : (lo8 r).setWidth 16 <<< 8 = r <<< 8 := by
  apply BitVec.eq_of_toNat_eq
  simp [lo8, Nat.shiftLeft_eq]
  omega

theorem hi8_eq_shift (r : Half) : hi8 r = (r >>> 8).setWidth 8 := by
  apply BitVec.eq_of_toNat_eq
  simp [hi8]

/-- A byte fed to the high half of an otherwise empty register counts as that half's own. -/
theorem crcByte_high (h b : Byte) : crcByte (h.setWidth 16 <<< 8) b = crcByte ((h ^^^ b).setWidth 16 <<< 8) 0#8 := by
  have split : h.setWidth 16 <<< 8 = (h ^^^ b).setWidth 16 <<< 8 ^^^ b.setWidth 16 <<< 8 := by
    rw [BitVec.setWidth_xor, BitVec.shiftLeft_xor_distrib, BitVec.xor_assoc, BitVec.xor_self, BitVec.xor_zero]
  calc crcByte (h.setWidth 16 <<< 8) b
      = crcByte ((h ^^^ b).setWidth 16 <<< 8 ^^^ b.setWidth 16 <<< 8) (0#8 ^^^ b) := by rw [split, BitVec.zero_xor]
    _ = crcByte ((h ^^^ b).setWidth 16 <<< 8) 0#8 := by rw [crcByte_xor, crcByte_high_self, BitVec.xor_zero]

/-- The byte step moves the low half up and feeds the byte to the high half, where it meets the register's own high byte. -/
theorem crcByte_eq_halves (r : Half) (b : Byte) :
    crcByte r b = r <<< 8 ^^^ crcByte ((hi8 r ^^^ b).setWidth 16 <<< 8) 0#8 := by
  calc crcByte r b
      = crcByte ((hi8 r).setWidth 16 <<< 8 ^^^ (lo8 r).setWidth 16) (b ^^^ 0#8) := by
        rw [← half_eq_bytes, BitVec.xor_zero]
    _ = r <<< 8 ^^^ crcByte ((hi8 r ^^^ b).setWidth 16 <<< 8) 0#8 := by
        rw [crcByte_xor, crcByte_low_zero, lo8_shifted, crcByte_high, BitVec.xor_comm]

/-! ## The table form (R63) -/

/-- One step of the table's own computation: shift, and reduce by the polynomial when the top bit falls out. -/
def shiftReduce (x : Half) : Half := (x <<< 1) ^^^ (if x.getLsbD 15 then 0x1021#16 else 0#16)

theorem crcBit_false (r : Half) : crcBit r false = shiftReduce r := by
  simp only [crcBit_eq_ite, shiftReduce, ne_eq, Bool.not_eq_false]
  split
  · rfl
  · rw [BitVec.xor_zero]

/-- Under a zero byte the byte step is eight steps of the table's computation. -/
theorem crcByte_zero (r : Half) : crcByte r 0#8 = shiftReduce^[8] r := by
  simp [crcByte, crcBit_false]

/-- Settles O16: the halves of the byte step, the high one by the table's computation. -/
theorem byteStepIsTheTableForm : Obligations.ByteStepIsTheTableForm := by
  intro r b
  rw [crcByte_eq_halves, crcByte_zero, hi8_eq_shift]
  rfl

/-! ## The residue (R67) -/

@[simp] theorem hi8_xor (a b : Half) : hi8 (a ^^^ b) = hi8 a ^^^ hi8 b := by
  simp [hi8, BitVec.extractLsb'_xor]

@[simp] theorem lo8_xor (a b : Half) : lo8 (a ^^^ b) = lo8 a ^^^ lo8 b := by
  simp [lo8, BitVec.extractLsb'_xor]

/-- Fed its own high byte with a change, a register keeps its low byte, moved up, beside what the change alone leaves. -/
theorem crcByte_own_high (r : Half) (x : Byte) : crcByte r (hi8 r ^^^ x) = r <<< 8 ^^^ crcByte 0#16 x := by
  have change : crcByte 0#16 x = crcByte (x.setWidth 16 <<< 8) 0#8 := by
    simpa [hi8] using crcByte_eq_halves 0#16 x
  rw [crcByte_eq_halves, change, ← BitVec.xor_assoc, BitVec.xor_self, BitVec.zero_xor]

/-- Feeding a register its own two bytes, each with a change, leaves what the changes alone leave. -/
theorem crcFold_own_bytes (r : Half) (x y : Byte) :
    crcFold r [hi8 r ^^^ x, lo8 r ^^^ y] = crcFold 0#16 [x, y] := by
  simp only [crcFold, List.foldl_cons, List.foldl_nil]
  rw [crcByte_own_high, crcByte_xor, ← lo8_shifted, crcByte_high_self, BitVec.zero_xor]

/-- Settles O17: the checksum's bytes are the register's own, each inverted, so the residue is that of `FF FF` alone. -/
theorem checksumResidue : Obligations.ChecksumResidue := by
  intro m
  have inverted : crcFold 0#16 [0xFF#8, 0xFF#8] = 0x1D0F#16 := by decide +kernel
  have residue : crcFold 0xFFFF#16 (m ++ [hi8 (crc16 m), lo8 (crc16 m)]) = 0x1D0F#16 := by
    rw [crcFold_append, crc16_eq, hi8_xor, lo8_xor]
    exact (crcFold_own_bytes _ _ _).trans inverted
  exact ⟨residue, by rw [crc16_eq, residue]; decide⟩

end Sys2Proof.Machine

/-! PROOFS. The frame builder family (41_frame_builder.md): every answer of WRITE, WRITE_ALL, FINALIZE and PAYLOAD, what none of them changes, and the error table R83. -/

namespace Sys2Proof.Machine

/-! ## What an operation raises -/

theorem raises_iff_of_settleFrame {i : Instr} {s : State} {r : Except ErrKind Frame} {v : Frame → Value}
    (e : exec i s = .next (settleFrame r v s)) (k : ErrKind) : Raises i s k ↔ r = .error k := by
  simp only [Raises, e, Host.Outcome.next.injEq, exists_eq_left']
  cases r <;> simp

theorem raises_iff_of_settleValue {i : Instr} {s : State} {r : Except ErrKind Value}
    (e : exec i s = .next (settleValue r s)) (k : ErrKind) : Raises i s k ↔ r = .error k := by
  simp only [Raises, e, Host.Outcome.next.injEq, exists_eq_left']
  cases r <;> simp

theorem raises_iff_of_settleParse {i : Instr} {s : State} {r : Except ErrKind Bytes}
    (e : exec i s = .next (settleParse r s)) (k : ErrKind) : Raises i s k ↔ r = .error k := by
  simp only [Raises, e, Host.Outcome.next.injEq, exists_eq_left']
  cases r <;> simp

/-! ## WRITE and WRITE_ALL (R71, R72) -/

theorem exec_write (b : Byte) (s : State) :
    exec (.write b) s = .next (settleFrame (writeByte s.txf b) (fun _ => .nothing) s) := rfl

theorem exec_writeAll (b : Bytes) (s : State) :
    exec (.writeAll b) s = .next (settleFrame (writeBytes s.txf b) (fun _ => .nothing) s) := rfl

theorem writeByte_full {buf : Bytes} (b : Byte) (h : 254 ≤ buf.length) :
    writeByte (some ⟨buf, false⟩) b = .error .overflow := by
  simp [writeByte, h]

theorem writeBytes_full {buf b : Bytes} (h : 254 < buf.length + b.length) :
    writeBytes (some ⟨buf, false⟩) b = .error .overflow := by
  simp [writeBytes, h]

/-- When WRITE is refused, and how (R83). -/
theorem writeByte_eq_error_iff (slot : Option Frame) (b : Byte) (k : ErrKind) :
    writeByte slot b = .error k ↔
      (k = .noFrame ∧ slot = none) ∨ (k = .writeAfterFinal ∧ ∃ buf, slot = some ⟨buf, true⟩) ∨
        (k = .overflow ∧ ∃ buf, slot = some ⟨buf, false⟩ ∧ 254 ≤ buf.length) := by
  rcases slot with _ | ⟨buf, _ | _⟩
  · simp [writeByte, eq_comm]
  · by_cases full : 254 ≤ buf.length
    · simp [writeByte_full b full, full, eq_comm]
    · simp [writeByte_open (Nat.lt_of_not_le full), full]
  · simp [writeByte, eq_comm]

/-- When WRITE_ALL is refused, and how (R83). -/
theorem writeBytes_eq_error_iff (slot : Option Frame) (b : Bytes) (k : ErrKind) :
    writeBytes slot b = .error k ↔
      (k = .noFrame ∧ slot = none) ∨ (k = .writeAfterFinal ∧ ∃ buf, slot = some ⟨buf, true⟩) ∨
        (k = .overflow ∧ ∃ buf, slot = some ⟨buf, false⟩ ∧ 254 < buf.length + b.length) := by
  rcases slot with _ | ⟨buf, _ | _⟩
  · simp [writeBytes, eq_comm]
  · by_cases full : 254 < buf.length + b.length
    · simp [writeBytes_full full, full, eq_comm]
    · simp [writeBytes_open (Nat.le_of_not_lt full), full]
  · simp [writeBytes, eq_comm]

theorem exec_write_error {b : Byte} {s : State} {k : ErrKind} (h : writeByte s.txf b = .error k) :
    exec (.write b) s = .next (raise k s) := by
  rw [exec_write, h, settleFrame_error]

theorem exec_writeAll_error {b : Bytes} {s : State} {k : ErrKind} (h : writeBytes s.txf b = .error k) :
    exec (.writeAll b) s = .next (raise k s) := by
  rw [exec_writeAll, h, settleFrame_error]

/-- The state after a write that succeeded. -/
def wrote (buf : Bytes) (s : State) : State := answer .nothing { s with txf := some ⟨buf, false⟩ }

theorem exec_write_open {s : State} {buf : Bytes} (b : Byte) (held : s.txf = some ⟨buf, false⟩) (fits : buf.length < 254) :
    exec (.write b) s = .next (wrote (buf ++ [b]) s) := by
  rw [exec_write, held, writeByte_open fits]; rfl

theorem exec_writeAll_open {s : State} {buf b : Bytes} (held : s.txf = some ⟨buf, false⟩)
    (fits : buf.length + b.length ≤ 254) : exec (.writeAll b) s = .next (wrote (buf ++ b) s) := by
  rw [exec_writeAll, held, writeBytes_open fits]; rfl

/-- Settles O19: WRITE's word, the three refusals, the append. -/
theorem writeAppendsOneByte : Obligations.WriteAppendsOneByte := by
  intro b s
  have refused (k : ErrKind) := (writeByte_eq_error_iff s.txf b k).mpr
  exact ⟨decode_word_write b,
    fun empty => exec_write_error (refused _ (.inl ⟨rfl, empty⟩)),
    fun buf final => exec_write_error (refused _ (.inr (.inl ⟨rfl, buf, final⟩))),
    fun buf held full => exec_write_error (refused _ (.inr (.inr ⟨rfl, buf, held, full⟩))),
    fun _ held fits => exec_write_open b held fits⟩

/-- Settles O20: WRITE_ALL's word, the three refusals, the append. -/
theorem writeAllAppendsAllOrNothing : Obligations.WriteAllAppendsAllOrNothing := by
  intro b s
  have refused (k : ErrKind) := (writeBytes_eq_error_iff s.txf b k).mpr
  exact ⟨fun _ => rfl,
    fun empty => exec_writeAll_error (refused _ (.inl ⟨rfl, empty⟩)),
    fun buf final => exec_writeAll_error (refused _ (.inr (.inl ⟨rfl, buf, final⟩))),
    fun buf held full => exec_writeAll_error (refused _ (.inr (.inr ⟨rfl, buf, held, full⟩))),
    fun _ held fits => exec_writeAll_open held fits⟩

theorem execAll_cons {i : Instr} {rest : List Instr} {s t : State} (h : exec i s = .next t) :
    execAll (i :: rest) s = execAll rest t := by
  simp only [execAll, h]

/-- Writes after a write that succeeded, while they fit, are one longer write. -/
theorem execAll_write_wrote (b buf : Bytes) (s : State) (fits : buf.length + b.length ≤ 254) :
    execAll (b.map .write) (wrote buf s) = .next (wrote (buf ++ b) s) := by
  induction b generalizing buf with
  | nil => rw [List.append_nil]; rfl
  | cons x xs ih =>
    rw [List.length_cons] at fits
    rw [List.map_cons, execAll_cons (exec_write_open x (s := wrote buf s) rfl (by omega)),
      show wrote (buf ++ [x]) (wrote buf s) = wrote (buf ++ [x]) s from rfl, ih _ (by simp; omega),
      List.append_assoc, List.singleton_append]

/-- Settles O21: the first WRITE succeeds, and those after it are one longer write. -/
theorem writeAllIsSuccessiveWrites : Obligations.WriteAllIsSuccessiveWrites := by
  intro b s buf held fits nonempty
  cases b with
  | nil => exact absurd rfl nonempty
  | cons x xs =>
    rw [exec_writeAll_open held fits, List.map_cons]
    rw [List.length_cons] at fits
    rw [execAll_cons (exec_write_open x held (by omega)), execAll_write_wrote _ _ _ (by simp; omega),
      List.append_assoc, List.singleton_append]

/-! ## FINALIZE (R73) -/

theorem exec_finalize {s : State} (h : withinBounds s.txf = true) :
    exec .finalize s = .next (settleFrame (finalizeSlot s.txf) (fun f => .bytes f.buf) s) := by
  simp only [exec, execFinalize, h, if_true]

theorem exec_finalize_none {s : State} (h : s.txf = none) : exec .finalize s = .next (raise .noFrame s) := by
  rw [exec_finalize (by rw [h]; rfl), h]; rfl

theorem withinBounds_open (buf : Bytes) :
    withinBounds (some ⟨buf, false⟩) = true ↔ 3 ≤ buf.length ∧ buf.length ≤ 254 := by
  simp [withinBounds]

/-- FINALIZE of an open frame that fits stores and answers the wire frame of its start byte and payload. -/
theorem exec_finalize_open {s : State} {start h l : Byte} {p : Bytes}
    (held : s.txf = some ⟨start :: h :: l :: p, false⟩) (fits : p.length ≤ 251) :
    exec .finalize s =
      .next (answer (.bytes (wireFrame start p)) { s with txf := some ⟨wireFrame start p, true⟩ }) := by
  have within : withinBounds s.txf = true := by
    rw [held, withinBounds_open, List.length_cons, List.length_cons, List.length_cons]
    omega
  rw [exec_finalize within, held, finalizeSlot, finalizeFrame_open, settleFrame_ok]

/-- Settles O22: FINALIZE's word, and FINALIZE on each kind of slot; the wire frame is the layout of R40 by computation. -/
theorem finalizeMakesTheWireFrame : Obligations.FinalizeMakesTheWireFrame := by
  intro s
  refine ⟨fun _ => rfl, exec_finalize_none, fun buf final => exec_finalize_of_final final rfl, ?_⟩
  intro start h l p held fits
  exact exec_finalize_open held fits

theorem exec_finalize_stops {s : State} (h : ¬ withinBounds s.txf = true) :
    exec .finalize s = .fault .openFrameOutOfBounds := by
  simp only [exec, execFinalize, h, Bool.false_eq_true, if_false]

/-- Settles O24: the bound is false of such a frame. -/
theorem finalizeStopsOutsideItsBound : Obligations.FinalizeStopsOutsideItsBound := by
  intro s buf held out
  refine exec_finalize_stops ?_
  rw [held, withinBounds_open]
  omega

/-! ## PAYLOAD (R74) -/

theorem payloadOf_open (buf : Bytes) :
    payloadOf ⟨buf, false⟩ = if buf.length ≤ 3 then none else some (buf.drop 3) := by
  have region : slice buf 3 buf.length = buf.drop 3 := List.take_of_length_le (by simp)
  have empty : (buf.length : Int) ≤ 3 ↔ buf.length ≤ 3 := by omega
  simp [payloadOf, payloadEnd, region, empty]

theorem payloadOf_final (buf : Bytes) :
    payloadOf ⟨buf, true⟩ = if buf.length ≤ 5 then none else some (slice buf 3 (buf.length - 2)) := by
  have region : ((buf.length : Int) - 2).toNat = buf.length - 2 := by omega
  have empty : (buf.length : Int) - 2 ≤ 3 ↔ buf.length ≤ 5 := by omega
  simp only [payloadOf, payloadEnd, if_true, region, empty]

theorem exec_payload_none {sel : Slot} {s : State} (h : slotFrame sel s = none) :
    exec (.payload sel) s = .next (raise .noFrame s) := by
  simp only [exec, execPayload, h, payloadSlot, settleValue_error]

theorem exec_payload_some {sel : Slot} {s : State} {f : Frame} (h : slotFrame sel s = some f) :
    exec (.payload sel) s = .next (answer (.optBytes (payloadOf f)) s) := by
  simp only [exec, execPayload, h, payloadSlot, settleValue_ok]

/-- Settles O25: PAYLOAD's two words, and the payload region of each kind of frame. -/
theorem payloadIsThePayloadRegion : Obligations.PayloadIsThePayloadRegion := by
  intro sel s
  refine ⟨fun _ => ⟨rfl, rfl⟩, ?_⟩
  intro held
  have slot : slotFrame sel s = held := by cases sel <;> rfl
  refine ⟨fun empty => exec_payload_none (slot.trans empty), ?_, ?_, ?_, ?_⟩
  · intro buf opened short
    rw [exec_payload_some (slot.trans opened), payloadOf_open, if_pos short]; rfl
  · intro header p opened three nonempty
    have := List.length_pos_iff.mpr nonempty
    rw [exec_payload_some (slot.trans opened), payloadOf_open, if_neg (by simp [three]; omega), List.drop_left' three]; rfl
  · intro buf final short
    rw [exec_payload_some (slot.trans final), payloadOf_final, if_pos short]; rfl
  · intro header p tail final three two nonempty
    have := List.length_pos_iff.mpr nonempty
    have region : slice (header ++ p ++ tail) 3 ((header ++ p ++ tail).length - 2) = p := by
      rw [slice, List.append_assoc, List.drop_left' three]
      exact List.take_left' (by simp [three, two]; omega)
    rw [exec_payload_some (slot.trans final), payloadOf_final, if_neg (by simp [three, two]; omega), region]; rfl

/-! ## What keeps the frame in TXF (R14, R76) -/

/-- An operation of the class that changes no state ends with a result and nothing else. -/
theorem exec_of_changesNoState {i : Instr} (h : changesNoState i = true) (s : State) :
    ∃ r, exec i s = .next (settleValue r s) := by
  cases i with
  | crc16 | strip | payload | decInventory | decRead | decWrite | decRaw => exact ⟨_, rfl⟩
  | reservedF low => exact ⟨.error .notImplemented, rfl⟩
  | new | write | writeAll | finalize | parse | encInventory | encRead | encWrite => exact nomatch h
  | cmdInventory | cmdRead | cmdWrite => exact nomatch h

theorem settleFrame_txf_cases (r : Except ErrKind Frame) (v : Frame → Value) (s : State) :
    (settleFrame r v s).txf = s.txf ∨ ∃ f, r = .ok f ∧ (settleFrame r v s).txf = some f := by
  cases r with
  | error k => exact .inl rfl
  | ok f => exact .inr ⟨f, rfl, rfl⟩

theorem exists_open_of_writeByte_ok {slot : Option Frame} {b : Byte} {f : Frame} (h : writeByte slot b = .ok f) :
    ∃ buf, slot = some ⟨buf, false⟩ ∧ f = ⟨buf ++ [b], false⟩ := by
  obtain ⟨-, e⟩ | ⟨_, -, -, e⟩ | ⟨_, -, -, -, e⟩ | ⟨⟨buf, fin⟩, held, rfl, -, e⟩ := writeByte_cases slot b
  all_goals rw [e] at h; cases h
  exact ⟨buf, held, rfl⟩

theorem exists_open_of_writeBytes_ok {slot : Option Frame} {b : Bytes} {f : Frame} (h : writeBytes slot b = .ok f) :
    ∃ buf, slot = some ⟨buf, false⟩ ∧ f = ⟨buf ++ b, false⟩ := by
  obtain ⟨-, e⟩ | ⟨_, -, -, e⟩ | ⟨_, -, -, -, e⟩ | ⟨⟨buf, fin⟩, held, rfl, -, e⟩ := writeBytes_cases slot b
  all_goals rw [e] at h; cases h
  exact ⟨buf, held, rfl⟩

/-- What an operation that starts no frame can do to `TXF`: nothing, append to an open frame, or finalize. -/
theorem txf_cases_of_not_startsFrame {i : Instr} {s t : State} (h : startsFrame i = false) (e : exec i s = .next t) :
    t.txf = s.txf ∨ (∃ buf b, s.txf = some ⟨buf, false⟩ ∧ t.txf = some ⟨buf ++ b, false⟩) ∨
      (∃ f, s.txf = some f ∧ t.txf = some (finalizeFrame f)) := by
  by_cases idle : changesNoState i = true
  · obtain ⟨r, e'⟩ := exec_of_changesNoState idle s
    rw [e'] at e; cases e
    exact .inl (settleValue_txf r s)
  cases i with
  | write b =>
    obtain rfl := Host.Outcome.next.inj e
    obtain same | ⟨f, ok, stored⟩ := settleFrame_txf_cases (writeByte s.txf b) (fun _ => .nothing) s
    · exact .inl same
    · obtain ⟨buf, held, rfl⟩ := exists_open_of_writeByte_ok ok
      exact .inr (.inl ⟨buf, [b], held, stored⟩)
  | writeAll b =>
    obtain rfl := Host.Outcome.next.inj e
    obtain same | ⟨f, ok, stored⟩ := settleFrame_txf_cases (writeBytes s.txf b) (fun _ => .nothing) s
    · exact .inl same
    · obtain ⟨buf, held, rfl⟩ := exists_open_of_writeBytes_ok ok
      exact .inr (.inl ⟨buf, b, held, stored⟩)
  | finalize =>
    cases held : s.txf with
    | none =>
      rw [exec_finalize_none held] at e; cases e
      exact .inl held
    | some f =>
      obtain rfl := eq_of_exec_finalize held e
      exact .inr (.inr ⟨f, rfl, rfl⟩)
  | parse record =>
    obtain rfl := Host.Outcome.next.inj e
    exact .inl (settleParse_txf _ s)
  | new | encInventory | encRead | encWrite | cmdInventory | cmdRead | cmdWrite => exact nomatch h
  | crc16 | strip | payload | decInventory | decRead | decWrite | decRaw | reservedF => exact absurd rfl idle

/-- Settles O26: a finalized frame is not appended to, and FINALIZE makes it itself again. -/
theorem finalizedFrameIsImmutable : Obligations.FinalizedFrameIsImmutable := by
  intro i s t buf held starts e
  refine ⟨?_, ?_, ?_, ?_⟩
  · obtain same | ⟨_, _, opened, -⟩ | ⟨f, held', stored⟩ := txf_cases_of_not_startsFrame starts e
    · exact same.trans held
    · rw [held] at opened
      exact nomatch opened
    · rw [held] at held'
      cases held'
      exact stored
  · rintro b rfl
    rw [exec_write, held] at e; cases e; rfl
  · rintro b rfl
    rw [exec_writeAll, held] at e; cases e; rfl
  · rintro rfl
    rw [exec_finalize_of_final held rfl] at e; cases e; rfl

/-- FINALIZE keeps the start byte of a frame that has a header. -/
theorem finalizeFrame_start {f : Frame} (long : 3 ≤ f.buf.length) : byteAt (finalizeFrame f).buf 0 = byteAt f.buf 0 := by
  rcases f with ⟨buf, _ | _⟩
  · obtain ⟨start, a, b, rest, rfl⟩ := exists_header long
    rw [finalizeFrame_open]; rfl
  · rfl

/-- Settles O27: neither an append nor FINALIZE touches byte 0. -/
theorem startByteNeverChanges : Obligations.StartByteNeverChanges := by
  intro i s t f held long starts e
  obtain same | ⟨buf, b, opened, stored⟩ | ⟨g, held', stored⟩ := txf_cases_of_not_startsFrame starts e
  · exact ⟨f, same.trans held, rfl⟩
  · rw [held] at opened
    cases opened
    exact ⟨_, stored, byteAt_append_left (by simp only at long; omega)⟩
  · rw [held] at held'
    cases held'
    exact ⟨_, stored, finalizeFrame_start long⟩

/-! ## The error table (R83) -/

theorem raises_write_iff (b : Byte) (s : State) (k : ErrKind) : Raises (.write b) s k ↔ writeByte s.txf b = .error k :=
  raises_iff_of_settleFrame (exec_write b s) k

theorem raises_writeAll_iff (b : Bytes) (s : State) (k : ErrKind) :
    Raises (.writeAll b) s k ↔ writeBytes s.txf b = .error k :=
  raises_iff_of_settleFrame (exec_writeAll b s) k

theorem raises_finalize_iff {s : State} (h : withinBounds s.txf = true) (k : ErrKind) :
    Raises .finalize s k ↔ k = .noFrame ∧ s.txf = none := by
  rw [raises_iff_of_settleFrame (exec_finalize h)]
  cases s.txf <;> simp [finalizeSlot, eq_comm]

theorem raises_payload_iff (sel : Slot) (s : State) (k : ErrKind) :
    Raises (.payload sel) s k ↔ k = .noFrame ∧ slotFrame sel s = none := by
  rw [raises_iff_of_settleValue (r := payloadSlot (slotFrame sel s)) rfl]
  cases slotFrame sel s <;> simp [payloadSlot, eq_comm]

/-- Under R14 an open frame that WRITE refuses is exactly full. -/
theorem open_full_iff {slot : Option Frame} (ok : slotHas Frame.TxOk slot) :
    (∃ buf, slot = some ⟨buf, false⟩ ∧ 254 ≤ buf.length) ↔ ∃ buf, slot = some ⟨buf, false⟩ ∧ buf.length = 254 := by
  refine exists_congr fun buf => and_congr_right fun held => ?_
  obtain ⟨-, hi, -, -⟩ := (ok _ held).1 rfl
  exact ⟨fun lo => Nat.le_antisymm hi lo, fun e => e.ge⟩

/-- Settles O28: each operation's row from when its slot operation is refused. -/
theorem builderErrorTable : Obligations.BuilderErrorTable := by
  intro s inv
  refine ⟨fun start k => ?_, fun b => ?_, fun b => ?_, raises_finalize_iff (withinBounds_of_txOk inv.tx),
    raises_payload_iff .txf s, raises_payload_iff .rxf s⟩
  · rw [raises_iff_of_settleFrame (r := .ok (newFrame start)) rfl]
    exact nofun
  · simp [raises_write_iff, writeByte_eq_error_iff, open_full_iff inv.tx]
  · simp [raises_writeAll_iff, writeBytes_eq_error_iff]

end Sys2Proof.Machine

/-! PROOFS. The frame parser family (42_frame_parser.md): PARSE's outcomes, its shortest records, what does not gate it, the altered checksum, and the round trip R82. -/

namespace Sys2Proof.Machine

/-! ## Bytes and their logical length -/

/-- The logical length is the same where sequences of one length agree from an offset that lies inside it. -/
theorem strip_eq_of_agree {a b : Bytes} {m : Nat} (len : a.length = b.length)
    (agree : ∀ k, m ≤ k → byteAt a k = byteAt b k) (inside : m < strip a) : strip b = strip a := by
  refine stripFrom_unique _ _ _ (len ▸ strip_le a) (.inr ?_) fun k past _ => ?_
  · rw [← agree _ (by omega)]
    exact strip_last a (by omega)
  · rw [← agree _ (by omega)]
    exact byteAt_of_strip_le past

theorem byteAt_eq_getElem {b : Bytes} {i : Nat} (h : i < b.length) : byteAt b i = b[i] := by
  simp [byteAt, h]

/-- Sequences of one length have one slice where they agree. -/
theorem slice_eq_of_agree {a b : Bytes} {i j : Nat} (len : a.length = b.length)
    (agree : ∀ k, i ≤ k → k < j → byteAt a k = byteAt b k) : slice a i j = slice b i j := by
  refine List.ext_getElem (by rw [slice_length, slice_length, len]) fun k ha hb => ?_
  have bound : k < j - i := by rw [slice_length] at ha; omega
  rw [← byteAt_eq_getElem ha, ← byteAt_eq_getElem hb, byteAt_slice _ _ _ _ bound, byteAt_slice _ _ _ _ bound]
  exact agree _ (by omega) (by omega)

/-- Two 16-bit values agree when and only when their bytes do. -/
theorem be16_inj {a b c d : Byte} : be16 a b = be16 c d ↔ a = c ∧ b = d := by
  refine ⟨fun h => ?_, by rintro ⟨rfl, rfl⟩; rfl⟩
  have n := congrArg BitVec.toNat h
  rw [be16_toNat, be16_toNat] at n
  have := b.isLt
  have := d.isLt
  exact ⟨BitVec.eq_of_toNat_eq (by omega), BitVec.eq_of_toNat_eq (by omega)⟩

/-! ## Every outcome of PARSE (R86, R88 to R90) -/

theorem exec_parse (record : Record) (s : State) :
    exec (.parse record) s = .next (settleParse (parseRecord record) s) := rfl

theorem exec_parse_ok {record : Record} {logical : Bytes} (h : parseRecord record = .ok logical) (s : State) :
    exec (.parse record) s = .next (answer (parseValue logical) { s with rxf := some ⟨logical, true⟩ }) := by
  rw [exec_parse, h, settleParse_ok]

theorem exec_parse_error {record : Record} {k : ErrKind} (h : parseRecord record = .error k) (s : State) :
    exec (.parse record) s = .next (raise k { s with rxf := none }) := by
  rw [exec_parse, h, settleParse_error]

/-- When PARSE fails, and how (R90). -/
theorem parseRecord_eq_error_iff (record : Record) (k : ErrKind) :
    parseRecord record = .error k ↔
      (k = .shortRecord ∧ strip record.toList < 3) ∨
        (k = .wrongChecksum ∧ 3 ≤ strip record.toList ∧
          computedChecksum record.toList (strip record.toList) ≠ declaredChecksum record.toList (strip record.toList)) := by
  obtain ⟨short, e⟩ | ⟨long, differ, e⟩ | ⟨long, same, e⟩ := parseRecord_cases record
  · simp [e, short, eq_comm, Nat.not_le.mpr short]
  · simp [e, differ, long, eq_comm, Nat.not_lt.mpr long]
  · simp [e, same, Nat.not_lt.mpr long]

/-- When PARSE passes, and with which bytes (R87). -/
theorem parseRecord_eq_ok {record : Record} (long : 3 ≤ strip record.toList)
    (same : computedChecksum record.toList (strip record.toList) = declaredChecksum record.toList (strip record.toList)) :
    parseRecord record = .ok (record.toList.take (strip record.toList)) := by
  obtain ⟨short, -⟩ | ⟨-, differ, -⟩ | ⟨-, -, e⟩ := parseRecord_cases record
  · omega
  · exact absurd same differ
  · exact e

theorem exec_parse_short {record : Record} (short : strip record.toList < 3) (s : State) :
    exec (.parse record) s = .next (raise .shortRecord { s with rxf := none }) :=
  exec_parse_error ((parseRecord_eq_error_iff record _).mpr (.inl ⟨rfl, short⟩)) s

theorem exec_parse_wrong {record : Record} {n : Nat} (logical : strip record.toList = n) (long : 3 ≤ n)
    (differ : computedChecksum record.toList n ≠ declaredChecksum record.toList n) (s : State) :
    exec (.parse record) s = .next (raise .wrongChecksum { s with rxf := none }) := by
  subst logical
  exact exec_parse_error ((parseRecord_eq_error_iff record _).mpr (.inr ⟨rfl, long, differ⟩)) s

/-- The length check compares integers, so a record of fewer than three bytes fails it; so does this comparison of naturals. -/
theorem lengthAgrees_eq (b : Bytes) (n : Nat) :
    lengthAgrees b n = decide ((be16 (byteAt b 1) (byteAt b 2)).toNat + 3 = n) := by
  simp only [lengthAgrees, decide_eq_decide]
  omega

/-- What PARSE returns for the logical bytes of a sequence, read on the sequence itself. -/
theorem parseValue_take {b : Bytes} {n : Nat} (le : n ≤ b.length) (long : 3 ≤ n) :
    parseValue (b.take n) = .frame (b.take n) (classOf (byteAt b 0))
      (decide ((be16 (byteAt b 1) (byteAt b 2)).toNat + 3 = n)) := by
  have len : (b.take n).length = n := by simp [le]
  have read (i : Nat) (h : i < n) : byteAt (b.take n) i = byteAt b i := by
    simp [byteAt, List.getElem?_take_of_lt h]
  rw [parseValue, len, lengthAgrees_eq, read 0 (by omega), read 1 (by omega), read 2 (by omega)]

/-- PARSE of a record whose checksum agrees (R88). -/
theorem exec_parse_passes {record : Record} {n : Nat} (logical : strip record.toList = n) (long : 3 ≤ n)
    (same : computedChecksum record.toList n = declaredChecksum record.toList n) (s : State) :
    exec (.parse record) s = .next (answer
      (.frame (record.toList.take n) (classOf (byteAt record.toList 0))
        (decide ((be16 (byteAt record.toList 1) (byteAt record.toList 2)).toNat + 3 = n)))
      { s with rxf := some ⟨record.toList.take n, true⟩ }) := by
  subst logical
  rw [exec_parse_ok (parseRecord_eq_ok long same), parseValue_take (strip_le _) long]

/-- Settles O31: PARSE's word and its three outcomes. -/
theorem parseOutcomes : Obligations.ParseOutcomes :=
  fun _ s => ⟨fun _ => rfl, fun short => exec_parse_short short s, fun long differ => exec_parse_wrong rfl long differ s,
    fun long same => exec_parse_passes rfl long same s⟩

/-- Settles O36: PARSE's result is settled by the record before the state is looked at. -/
theorem parseIsAFunctionOfTheRecord : Obligations.ParseIsAFunctionOfTheRecord := by
  intro record
  cases h : parseRecord record with
  | ok logical => exact ⟨_, _, exec_parse_ok h⟩
  | error k => exact ⟨_, _, exec_parse_error h⟩

/-- A frame that PARSE leaves in `RXF` is finalized and made of the logical bytes of its record. -/
theorem parseRecord_of_rxf {record : Record} {s t : State} {f : Frame} (e : exec (.parse record) s = .next t)
    (held : t.rxf = some f) : f.final = true ∧ parseRecord record = .ok f.buf := by
  cases h : parseRecord record with
  | ok logical => rw [exec_parse_ok h] at e; cases e; cases held; exact ⟨rfl, rfl⟩
  | error k => rw [exec_parse_error h] at e; cases e; exact nomatch held

/-! ## Records of three and four logical bytes (R91) -/

/-- Of four logical bytes the checksum covers byte 1 alone. -/
theorem computedChecksum_four {b : Bytes} (h : 2 ≤ b.length) : computedChecksum b 4 = crc16 [byteAt b 1] := by
  rcases b with _ | ⟨x, _ | ⟨y, rest⟩⟩
  · simp at h
  · simp at h
  · rfl

/-- Settles O32: three bytes by `parse_three_fails`; four by the two outcomes of the checksum test on byte 1. -/
theorem shortestRecords : Obligations.ShortestRecords := by
  intro record s b
  have size : b.length = 256 := record.length_toList
  have covered : computedChecksum b 4 = crc16 [byteAt b 1] := computedChecksum_four (by omega)
  refine ⟨fun three => exec_parse_wrong three le_rfl (parse_three_fails b three) s,
    fun four differ => exec_parse_wrong four (by decide) (covered ▸ differ.symm) s, fun four same => ?_⟩
  refine ⟨_, exec_parse_passes four (by decide) (covered.trans same.symm) s, rfl, rfl, ?_, ?_⟩
  · have one : (be16 (byteAt b 1) (byteAt b 2)).toNat + 3 = 4 ↔ be16 (byteAt b 1) (byteAt b 2) = 1#16 := by
      rw [BitVec.toNat_eq, BitVec.toNat_ofNat]
      omega
    simp only [answer_res, ← one]
    rfl
  · rw [exec_payload_some (sel := .rxf) rfl, payloadOf_final, if_pos (by simp)]
    rfl

/-! ## The start byte (R54, R92, R94) -/

/-- Settles O33: `START_DATA` lies 1 to 255 past `START_SETUP`, so it is another byte. -/
theorem startByteClasses : Obligations.StartByteClasses := by
  have differ : Config.startSetup ≠ Config.startData := by
    intro same
    have gap := Config.startGap.isLt
    have n := congrArg BitVec.toNat same
    rw [Config.startData, BitVec.toNat_add, BitVec.toNat_ofNat] at n
    have := Config.startSetup.isLt
    omega
  refine ⟨differ, ?_, ?_, fun b notSetup notData => ?_⟩
  · simp [classOf]
  · simp [classOf, differ.symm]
  · simp [classOf, notSetup, notData]

theorem byteAt_set_zero (record : Record) (b : Byte) {k : Nat} (h : 1 ≤ k) :
    byteAt (record.set 0 b).toList k = byteAt record.toList k := by
  rw [Vector.toList_set, byteAt, byteAt, List.getD_eq_getElem?_getD, List.getElem?_set_ne (by omega),
    List.getD_eq_getElem?_getD]

/-- A failure of PARSE stays one, of the same kind, when byte 0 is replaced: no test reads it. -/
theorem parseRecord_set_zero_error {record : Record} {k : ErrKind} (b : Byte) (h : parseRecord record = .error k) :
    parseRecord (record.set 0 b) = .error k := by
  have len : record.toList.length = (record.set 0 b).toList.length := by simp
  have agree (i : Nat) (past : 1 ≤ i) : byteAt record.toList i = byteAt (record.set 0 b).toList i :=
    (byteAt_set_zero record b past).symm
  rw [parseRecord_eq_error_iff] at h ⊢
  obtain ⟨rfl, short⟩ | ⟨rfl, long, differ⟩ := h
  · refine .inl ⟨rfl, ?_⟩
    by_contra long
    have := strip_eq_of_agree len.symm (fun i past => (agree i past).symm) (by omega)
    omega
  · have same : strip (record.set 0 b).toList = strip record.toList := strip_eq_of_agree len agree (by omega)
    refine .inr ⟨rfl, by omega, ?_⟩
    rw [same]
    simp only [computedChecksum, declaredChecksum] at differ ⊢
    rwa [← slice_eq_of_agree len fun i past _ => agree i past, ← agree _ (by omega), ← agree _ (by omega)]

/-- Settles O34: replacing byte 0 keeps a failure, and replacing it back is a replacement too. -/
theorem startByteGatesNothing : Obligations.StartByteGatesNothing := by
  intro record b s k
  rw [raises_iff_of_settleParse (exec_parse _ s), raises_iff_of_settleParse (exec_parse _ s)]
  refine ⟨fun h => ?_, parseRecord_set_zero_error b⟩
  have back := parseRecord_set_zero_error record[0] h
  rwa [Vector.set_set, Vector.set_getElem_self] at back

/-! ## A frame padded to a record (R82, R95) -/

theorem parseRecord_pad_sealed {f : Frame} (long : 3 ≤ f.buf.length) (le : f.buf.length ≤ 256)
    (last : byteAt f.buf (f.buf.length - 1) ≠ 0#8) (ok : f.Sealed) : parseRecord (pad f.buf) = .ok f.buf := by
  rw [parseRecord_pad le last, if_neg (by omega), if_neg (not_not_intro ok.symm)]

theorem parseRecord_pad_unsealed {f : Frame} (long : 3 ≤ f.buf.length) (le : f.buf.length ≤ 256)
    (last : byteAt f.buf (f.buf.length - 1) ≠ 0#8) (broken : ¬ f.Sealed) :
    parseRecord (pad f.buf) = .error .wrongChecksum := by
  rw [parseRecord_pad le last, if_neg (by omega), if_pos (Ne.symm broken)]

theorem byteAt_append_pair (a : Bytes) (x y : Byte) :
    byteAt (a ++ [x, y]) ((a ++ [x, y]).length - 2) = x ∧ byteAt (a ++ [x, y]) ((a ++ [x, y]).length - 1) = y := by
  constructor
  · rw [byteAt_append_right (by simp)]
    simp
  · rw [byteAt_append_right (by simp)]
    simp

/-- A frame is sealed when its last two bytes are the checksum of what lies between its start byte and them. -/
theorem sealed_append_iff (start : Byte) (body : Bytes) (x y : Byte) (final : Bool) :
    (Frame.mk (start :: body ++ [x, y]) final).Sealed ↔ be16 x y = crc16 body := by
  have covered : slice (start :: body ++ [x, y]) 1 ((start :: body ++ [x, y]).length - 2) = body := by
    simp [slice]
  obtain ⟨hi, lo⟩ := byteAt_append_pair (start :: body) x y
  simp only [Frame.Sealed, covered, hi, lo]

/-- A sequence of three bytes and more is its first byte, a body, and its last two. -/
theorem exists_body {buf : Bytes} (h : 3 ≤ buf.length) : ∃ start body x y, buf = start :: body ++ [x, y] := by
  cases buf with
  | nil => simp at h
  | cons start rest =>
    rw [List.length_cons] at h
    obtain ⟨x, y, pair⟩ : ∃ x y, rest.drop (rest.length - 2) = [x, y] :=
      List.length_eq_two.mp (by rw [List.length_drop]; omega)
    exact ⟨start, rest.take (rest.length - 2), x, y, by rw [List.cons_append, ← pair, List.take_append_drop]⟩

/-- Settles O35: the covered bytes are untouched, so their checksum is still the frame's own, and the one declared is another. -/
theorem alteredChecksumIsWrong : Obligations.AlteredChecksumIsWrong := by
  rintro s ⟨buf, final⟩ x y - built - differ nonzero
  obtain ⟨lo, hi, -, ok⟩ := built
  simp only at lo hi differ ⊢
  obtain ⟨start, body, u, v, rfl⟩ := exists_body (by omega : 3 ≤ buf.length)
  have cut : (start :: body ++ [u, v]).length - 2 = (start :: body).length := by simp
  rw [cut, List.drop_left] at differ
  rw [cut, List.take_left]
  rw [sealed_append_iff] at ok
  have len : (start :: body ++ [x, y]).length = (start :: body ++ [u, v]).length := by simp
  refine exec_parse_error (parseRecord_pad_unsealed (f := ⟨start :: body ++ [x, y], true⟩) ?_ ?_ ?_ ?_) s
  · simp only [len]; omega
  · simp only [len]; omega
  · exact (byteAt_append_pair (start :: body) x y).2.symm ▸ nonzero
  · rw [sealed_append_iff, ← ok, be16_inj]
    rintro ⟨rfl, rfl⟩
    exact differ rfl

/-! ## Build, finalize, parse (R82) -/

/-- NEW, WRITE_ALL and FINALIZE build the wire frame, whatever the state. -/
theorem execAll_build (start : Byte) {p : Bytes} (fits : p.length ≤ 251) (s : State) :
    execAll [.new start, .writeAll p, .finalize] s =
      .next (answer (.bytes (wireFrame start p)) { s with txf := some ⟨wireFrame start p, true⟩ }) := by
  rw [execAll_cons (exec_new start s), execAll_cons (exec_writeAll_open rfl (by simp; omega)),
    execAll_cons (exec_finalize_open rfl fits)]
  rfl

/-- What PARSE returns for a wire frame: its start class, and that its length agrees (R93). -/
theorem parseValue_wireFrame (start : Byte) {p : Bytes} (fits : p.length ≤ 251) :
    parseValue (wireFrame start p) = .frame (wireFrame start p) (classOf start) true := by
  rw [parseValue, lengthAgrees_eq, wireFrame_lengthField start fits, wireFrame_length, decide_eq_true (by omega)]
  rfl

theorem payloadOf_wireFrame (start : Byte) (p : Bytes) :
    payloadOf ⟨wireFrame start p, true⟩ = if p = [] then none else some p := by
  rw [payloadOf_final, wireFrame_payload, wireFrame_length]
  simp [← List.length_eq_zero_iff]

/-- Settles O29: a sealed frame whose last byte is not zero passes as it is; what PARSE leaves never ends in zero (R15). -/
theorem buildThenParseRoundTrip : Obligations.BuildThenParseRoundTrip := by
  intro s start p fits
  obtain ⟨five, le, -, ok⟩ := wireFrame_builtOk start fits
  refine ⟨wireFrame start p, _, execAll_build start fits s, rfl, rfl, fun last => ?_, fun last s₂ e held => ?_⟩
  · refine ⟨_, exec_parse_ok (parseRecord_pad_sealed (by omega) le last ok) _, rfl, ?_, ?_⟩
    · rw [answer_res, parseValue_wireFrame start fits]
    · rw [exec_payload_some (sel := .rxf) rfl, payloadOf_wireFrame]
      rfl
  · obtain ⟨-, -, -, nonzero, -⟩ := parseRecord_rxOk (parseRecord_of_rxf e held).2
    exact nonzero last

end Sys2Proof.Machine

/-! PROOFS. The device family (43_device_protocol.md): the command frames from the encoders' expansions and from the layouts, the custom command path, and every answer of the response decoders. -/

namespace Sys2Proof.Machine

/-! ## Wire frames written out (R40, R42) -/

/-- A length below 256 has a clear high byte. -/
theorem bigEndian_ofNat {n : Nat} (h : n < 256) : bigEndian (BitVec.ofNat 16 n) = [0x00#8, BitVec.ofNat 8 n] := by
  have high : hi8 (BitVec.ofNat 16 n) = 0x00#8 := by
    apply BitVec.eq_of_toNat_eq
    simp [hi8]
    omega
  have low : lo8 (BitVec.ofNat 16 n) = BitVec.ofNat 8 n := by
    apply BitVec.eq_of_toNat_eq
    simp [lo8]
  rw [bigEndian, high, low]

/-- A wire frame is its start byte, what the checksum covers, and the checksum. -/
theorem wireFrame_of_covered (start : Byte) {payload covered : Bytes} (short : payload.length ≤ 253)
    (h : [0x00#8, BitVec.ofNat 8 (2 + payload.length)] ++ payload = covered) :
    wireFrame start payload = [start] ++ covered ++ [hi8 (crc16 covered), lo8 (crc16 covered)] := by
  rw [wireFrame, bigEndian_ofNat (by omega), h]
  rfl

theorem wireFrame_read (start : Byte) {id : Bytes} (n : id.length = 8) :
    let covered : Bytes := [0x00#8, 0x0E#8, 0x02#8] ++ id ++ [0x00#8, 0x09#8, 0x0C#8]
    wireFrame start (readPayload id) = [start] ++ covered ++ [hi8 (crc16 covered), lo8 (crc16 covered)] := by
  refine wireFrame_of_covered start (by simp [n]) ?_
  rw [readPayload_length, n]
  rfl

theorem wireFrame_write (start : Byte) {id data : Bytes} (n : id.length = 8) (d : data.length ≤ 231) :
    let covered : Bytes :=
      [0x00#8, BitVec.ofNat 8 (22 + data.length), 0x04#8] ++ id ++ [0x00#8, 0x09#8, 0x00#8] ++ data ++ zeros 8
    wireFrame start (writePayload id data) = [start] ++ covered ++ [hi8 (crc16 covered), lo8 (crc16 covered)] := by
  refine wireFrame_of_covered start (by simp [n]; omega) ?_
  rw [writePayload_length, n, show 2 + (8 + data.length + 12) = 22 + data.length by omega]
  rfl

/-! ## The encoders (R101 to R103) -/

theorem encodeRead_error {id : Bytes} (h : id.length ≠ 8) : encodeRead id = .error .wrongCardId := by
  obtain ⟨-, e⟩ | ⟨n, -⟩ := encodeRead_cases id
  · exact e
  · exact absurd n h

theorem encodeRead_ok {id : Bytes} (h : id.length = 8) :
    encodeRead id = .ok ⟨wireFrame Config.startRead (readPayload id), true⟩ := by
  obtain ⟨no, -⟩ | ⟨-, e⟩ := encodeRead_cases id
  · exact absurd h no
  · exact e

theorem encodeWrite_error_id {id : Bytes} (data : Bytes) (h : id.length ≠ 8) :
    encodeWrite id data = .error .wrongCardId := by
  obtain ⟨-, e⟩ | ⟨n, -⟩ | ⟨n, -⟩ := encodeWrite_cases id data
  · exact e
  · exact absurd n h
  · exact absurd n h

theorem encodeWrite_error_data {id data : Bytes} (h : id.length = 8) (big : 231 < data.length) :
    encodeWrite id data = .error .overflow := by
  obtain ⟨no, -⟩ | ⟨-, -, e⟩ | ⟨-, d, -⟩ := encodeWrite_cases id data
  · exact absurd h no
  · exact e
  · omega

theorem encodeWrite_ok {id data : Bytes} (h : id.length = 8) (d : data.length ≤ 231) :
    encodeWrite id data = .ok ⟨wireFrame Config.startWrite (writePayload id data), true⟩ := by
  obtain ⟨no, -⟩ | ⟨-, big, -⟩ | ⟨-, -, e⟩ := encodeWrite_cases id data
  · exact absurd h no
  · omega
  · exact e

theorem exec_encRead (id : Bytes) (s : State) :
    exec (.encRead id) s = .next (settleFrame (encodeRead id) (fun f => .bytes f.buf) s) := rfl

theorem exec_encWrite (id data : Bytes) (s : State) :
    exec (.encWrite id data) s = .next (settleFrame (encodeWrite id data) (fun f => .bytes f.buf) s) := rfl

theorem exec_encRead_ok {id : Bytes} (h : id.length = 8) (s : State) :
    exec (.encRead id) s = .next (answer (.bytes (wireFrame Config.startRead (readPayload id)))
      { s with txf := some ⟨wireFrame Config.startRead (readPayload id), true⟩ }) := by
  rw [exec_encRead, encodeRead_ok h, settleFrame_ok]

theorem exec_encWrite_ok {id data : Bytes} (h : id.length = 8) (d : data.length ≤ 231) (s : State) :
    exec (.encWrite id data) s = .next (answer (.bytes (wireFrame Config.startWrite (writePayload id data)))
      { s with txf := some ⟨wireFrame Config.startWrite (writePayload id data), true⟩ }) := by
  rw [exec_encWrite, encodeWrite_ok h d, settleFrame_ok]

/-- Settles O38: ENC_READ's word, the identifier test, and the read layout written out. -/
theorem readCommandFrame : Obligations.ReadCommandFrame := by
  intro id s
  refine ⟨fun _ => rfl, fun wrong => ?_, fun n => ⟨by simp [n], ?_⟩⟩
  · rw [exec_encRead, encodeRead_error wrong]; rfl
  · rw [exec_encRead_ok n, wireFrame_read _ n]; rfl

/-- Settles O39: ENC_WRITE's word, the two tests in their order, and the write layout written out. -/
theorem writeCommandFrame : Obligations.WriteCommandFrame := by
  intro id data s
  refine ⟨fun _ => rfl, fun wrong => ?_, fun n big => ?_, fun n d => ⟨by simp [n]; omega, ?_⟩⟩
  · rw [exec_encWrite, encodeWrite_error_id data wrong]; rfl
  · rw [exec_encWrite, encodeWrite_error_data n big]; rfl
  · rw [exec_encWrite_ok n d, wireFrame_write _ n d]; rfl

/-- An operation that leaves a wire frame with a payload can have both read back (R104). -/
theorem exists_frame_reads_back {i : Instr} {start : Byte} {p : Bytes} (nonempty : p ≠ [])
    (builds : ∀ s : State, exec i s =
      .next (answer (.bytes (wireFrame start p)) { s with txf := some ⟨wireFrame start p, true⟩ })) :
    ∃ f, ∀ s : State, ∃ t, t = { s with txf := some ⟨f, true⟩, res := some (.ok (.bytes f)) } ∧
      exec i s = .next t ∧ exec .finalize t = .next t ∧
      exec (.payload .txf) t = .next { t with res := some (.ok (.optBytes (some p))) } := by
  refine ⟨wireFrame start p, fun s => ⟨_, rfl, builds s, exec_finalize_of_final (f := ⟨wireFrame start p, true⟩) rfl rfl, ?_⟩⟩
  rw [exec_payload_some (sel := .txf) rfl, payloadOf_wireFrame, if_neg nonempty]
  rfl

/-- Settles O40: each encoder leaves a wire frame, which does not depend on the state. -/
theorem encodedFrameReadsBack : Obligations.EncodedFrameReadsBack := by
  rintro i p (⟨rfl, rfl⟩ | ⟨id, n, rfl, rfl⟩ | ⟨id, data, n, d, rfl, rfl⟩)
  · exact exists_frame_reads_back (p := inventoryPayload) (by decide) exec_encInventory
  · exact exists_frame_reads_back (p := readPayload id) (by simp [readPayload]) (exec_encRead_ok n)
  · exact exists_frame_reads_back (p := writePayload id data) (by simp [writePayload]) (exec_encWrite_ok n d)

/-! ## The device commands (R50 to R52) -/

/-- The read encoder's expansion is the read layout under the layout's own tests. -/
theorem encodeRead_eq_layout (id : Bytes) :
    encodeRead id = (checkCommand id []).map fun _ => commandFrame Config.startRead (readPayload id) := by
  obtain ⟨wrong, c⟩ | ⟨-, big, -⟩ | ⟨n, -, c⟩ := checkCommand_cases id []
  · rw [c, encodeRead_error wrong]; rfl
  · exact absurd big (by decide)
  · rw [c, encodeRead_ok n]; rfl

theorem encodeWrite_eq_layout (id data : Bytes) :
    encodeWrite id data = (checkCommand id data).map fun _ => commandFrame Config.startWrite (writePayload id data) := by
  obtain ⟨wrong, c⟩ | ⟨n, big, c⟩ | ⟨n, d, c⟩ := checkCommand_cases id data
  · rw [c, encodeWrite_error_id data wrong]; rfl
  · rw [c, encodeWrite_error_data n big]; rfl
  · rw [c, encodeWrite_ok n d]; rfl

theorem exec_encInventory_eq_cmd (s : State) : exec .encInventory s = exec .cmdInventory s := by
  rw [exec_encInventory]; rfl

theorem exec_encRead_eq_cmd (id : Bytes) (s : State) : exec (.encRead id) s = exec (.cmdRead id) s := by
  rw [exec_encRead, encodeRead_eq_layout]; rfl

theorem exec_encWrite_eq_cmd (id data : Bytes) (s : State) : exec (.encWrite id data) s = exec (.cmdWrite id data) s := by
  rw [exec_encWrite, encodeWrite_eq_layout]; rfl

/-- Settles O42: both sides settle the same frame or error. -/
theorem encodersMeetTheLayouts : Obligations.EncodersMeetTheLayouts :=
  fun s id data => ⟨exec_encInventory_eq_cmd s, exec_encRead_eq_cmd id s, exec_encWrite_eq_cmd id data s⟩

/-- Settles O41: the device commands answer what the encoders do. -/
theorem deviceCommandFrames : Obligations.DeviceCommandFrames := by
  intro id data s
  obtain ⟨-, inventory⟩ := inventoryCommandFrame s
  obtain ⟨-, readWrong, read⟩ := readCommandFrame id s
  obtain ⟨-, writeWrong, writeBig, write⟩ := writeCommandFrame id data s
  simp only [← exec_encInventory_eq_cmd, ← exec_encRead_eq_cmd, ← exec_encWrite_eq_cmd]
  exact ⟨inventory, fun wrong => ⟨readWrong wrong, writeWrong wrong⟩, writeBig, fun n => (read n).2,
    fun n d => (write n d).2⟩

/-! ## The decoders (R110 to R112) -/

theorem exec_decInventory (r : Bytes) (s : State) :
    exec (.decInventory r) s = .next (settleValue ((decodeInventory r).map .ids) s) := rfl

theorem exec_decRead (r : Bytes) (s : State) :
    exec (.decRead r) s = .next (settleValue ((decodeRead r).map .bytes) s) := rfl

theorem exec_decWrite (r : Bytes) (s : State) :
    exec (.decWrite r) s = .next (settleValue ((decodeWrite r).map fun _ => .nothing) s) := rfl

/-- The inventory decoder's tests in their order (D13), with the offsets of R48 as numbers. -/
theorem decodeInventory_eq (r : Bytes) :
    decodeInventory r =
      if r.length < 5 then .error .wrongResponse
      else if cardCount r = 0 then .error .noCard
      else if r.length < 6 + 9 * cardCount r then .error .wrongResponse
      else .ok ((List.range (cardCount r)).map (cardIdentifier r)) := rfl

/-- The read decoder's tests in their order; where the adjusted end is negative or at most 12 the slice is empty (D14). -/
theorem decodeRead_eq (r : Bytes) :
    decodeRead r =
      if r.length < 3 then .error .wrongResponse
      else if byteAt r 1 ≠ 0#8 then .error .noCard
      else .ok (slice r 12 (strip r - 2)) := by
  obtain ⟨short, e⟩ | ⟨long, status, e⟩ | ⟨long, status, e⟩ := decodeRead_cases r
  · rw [e, if_pos short]
  · rw [e, if_neg (Nat.not_lt.mpr long), if_pos status]
  · rw [e, if_neg (Nat.not_lt.mpr long), if_neg (not_not_intro status)]

/-- The write decoder's tests in their order (D12). -/
theorem decodeWrite_eq (r : Bytes) :
    decodeWrite r =
      if r.length < 2 then .error .wrongResponse else if byteAt r 1 ≠ 0#8 then .error .noCard else .ok () := rfl

theorem slice_eq_nil {i j : Nat} (b : Bytes) (h : j ≤ i) : slice b i j = [] := by
  rw [slice, Nat.sub_eq_zero_of_le h, List.take_zero]

/-- Settles O43: DEC_INVENTORY's word, and its three tests in their order. -/
theorem inventoryResponse : Obligations.InventoryResponse := by
  intro r s
  refine ⟨fun _ => rfl, ?_⟩
  intro count
  have counted : cardCount r = count := rfl
  refine ⟨fun short => ?_, fun five noCard => ?_, fun five cards short => ?_, fun cards fits => ?_⟩
  · rw [exec_decInventory, decodeInventory_eq, if_pos short]; rfl
  · rw [exec_decInventory, decodeInventory_eq, counted, if_neg (by omega), if_pos noCard]; rfl
  · rw [exec_decInventory, decodeInventory_eq, counted, if_neg (by omega), if_neg cards, if_pos short]; rfl
  · rw [exec_decInventory, decodeInventory_eq, counted, if_neg (by omega), if_neg cards, if_neg (by omega)]; rfl

/-- Where the records fit, an identifier is 8 bytes (R113). -/
theorem cardIdentifier_length {r : Bytes} {i n : Nat} (fits : 6 + 9 * n ≤ r.length) (h : i < n) :
    (cardIdentifier r i).length = 8 := by
  rw [cardIdentifier, memRead, slice_length]
  simp only [recordOffset, Config.invRecOff, Config.recLen, Config.idLen]
  omega

/-- Settles O44: identifiers are answered after all tests only, so all records fit. -/
theorem inventoryIdentifiers : Obligations.InventoryIdentifiers := by
  intro r s t ids e answered
  obtain rfl := Host.Outcome.next.inj e
  obtain ⟨-, d⟩ | ⟨-, -, d⟩ | ⟨-, -, -, d⟩ | ⟨-, -, fits, d⟩ := decodeInventory_cases r
  all_goals rw [d] at answered; cases answered
  refine ⟨?_, fun id mem => ?_, fun short => ?_⟩
  · rw [List.length_map, List.length_range]; rfl
  · obtain ⟨i, range, rfl⟩ := List.mem_map.mp mem
    exact cardIdentifier_length fits (List.mem_range.mp range)
  · rw [List.length_map, List.length_range]; omega

/-- Settles O45: DEC_READ's word and its outcomes; the integer end and the natural one cut the same slice. -/
theorem readResponse : Obligations.ReadResponse := by
  intro r s
  refine ⟨fun _ => rfl, ?_⟩
  intro e
  refine ⟨fun short => ?_, fun long status => ?_, fun long status low => ?_, fun long status high => ?_⟩
  · rw [exec_decRead, decodeRead_eq, if_pos short]; rfl
  · rw [exec_decRead, decodeRead_eq, if_neg (by omega), if_pos status]; rfl
  · rw [exec_decRead, decodeRead_eq, if_neg (by omega), if_neg (not_not_intro status), slice_eq_nil r (by omega)]; rfl
  · rw [exec_decRead, decodeRead_eq, if_neg (by omega), if_neg (not_not_intro status),
      show strip r - 2 = e.toNat by omega]
    rfl

/-- Settles O46: the last remnant byte ends the logical bytes, so the adjusted end is where the data ends. -/
theorem readResponseYieldsTheData : Obligations.ReadResponseYieldsTheData := by
  intro header data x y k s twelve status nonzero
  have last := (byteAt_append_pair (header ++ data) x y).2
  have logical : strip (header ++ data ++ [x, y] ++ zeros k) = 12 + data.length + 2 := by
    rw [strip_append_zeros (last.symm ▸ nonzero)]
    simp [twelve]; omega
  have read : byteAt (header ++ data ++ [x, y] ++ zeros k) 1 = 0#8 := by
    rw [List.append_assoc, List.append_assoc, byteAt_append_left (by omega), status]
  have cut : slice (header ++ data ++ [x, y] ++ zeros k) 12 (12 + data.length + 2 - 2) = data := by
    rw [slice, List.append_assoc, List.append_assoc, List.drop_left' twelve]
    exact List.take_left' (by omega)
  rw [exec_decRead, decodeRead_eq, if_neg (by simp; omega), if_neg (not_not_intro read), logical, cut]
  rfl

/-- Settles O47: DEC_WRITE's word and its two tests in their order. -/
theorem writeResponse : Obligations.WriteResponse := by
  intro r s
  refine ⟨fun _ => rfl, fun short => ?_, fun long status => ?_, fun long status => ?_⟩
  · rw [exec_decWrite, decodeWrite_eq, if_pos short]; rfl
  · rw [exec_decWrite, decodeWrite_eq, if_neg (by omega), if_pos status]; rfl
  · rw [exec_decWrite, decodeWrite_eq, if_neg (by omega), if_neg (not_not_intro status)]; rfl

/-! ## What the decoders read (R35, R56) -/

theorem decodeInventory_eq_of_agree {a b : Bytes} (len : a.length = b.length) (count : byteAt a 4 = byteAt b 4)
    (agree : ∀ i k, i < (byteAt a 4).toNat → k < 8 → byteAt a (6 + 9 * i + k) = byteAt b (6 + 9 * i + k)) :
    decodeInventory a = decodeInventory b := by
  have counted : cardCount a = cardCount b := congrArg BitVec.toNat count
  have ids : (List.range (cardCount b)).map (cardIdentifier a) = (List.range (cardCount b)).map (cardIdentifier b) := by
    refine List.map_congr_left fun i range => slice_eq_of_agree len fun k lo hi => ?_
    have below : i < cardCount a := counted ▸ List.mem_range.mp range
    simp only [recordOffset, Config.invRecOff, Config.recLen, Config.idLen] at lo hi
    have same := agree i (k - (6 + 9 * i)) below (by omega)
    rwa [show 6 + 9 * i + (k - (6 + 9 * i)) = k by omega] at same
  rw [decodeInventory_eq, decodeInventory_eq, len, counted, ids]

/-- The trailing zeros of the two may differ, but only below offset 12, where nothing is read. -/
theorem slice_logical_eq_of_agree {a b : Bytes} (len : a.length = b.length)
    (agree : ∀ k, 12 ≤ k → byteAt a k = byteAt b k) : slice a 12 (strip a - 2) = slice b 12 (strip b - 2) := by
  by_cases inside : 12 < strip a
  · rw [strip_eq_of_agree len agree inside]
    exact slice_eq_of_agree len fun k lo _ => agree k lo
  · have outside : ¬ 12 < strip b := fun inside' =>
      inside (strip_eq_of_agree len.symm (fun k lo => (agree k lo).symm) inside' ▸ inside')
    rw [slice_eq_nil a (by omega), slice_eq_nil b (by omega)]

/-- Settles O49: each decoder's tests and slices read the agreed offsets only. -/
theorem decodersIgnoreUnusedBytes : Obligations.DecodersIgnoreUnusedBytes := by
  intro a b s len
  refine ⟨fun count agree => ?_, fun status agree => ?_, fun status => ?_⟩
  · rw [exec_decInventory, exec_decInventory, decodeInventory_eq_of_agree len count agree]
  · rw [exec_decRead, exec_decRead, decodeRead_eq, decodeRead_eq, len, status, slice_logical_eq_of_agree len agree]
  · rw [exec_decWrite, exec_decWrite, decodeWrite_eq, decodeWrite_eq, len, status]

/-! ## The custom command path (R55, R115) -/

theorem exec_decRaw (r : Bytes) (s : State) : exec (.decRaw r) s = .next (answer (.bytes r) s) := rfl

/-- A pending operation that ends takes one step of the run. -/
theorem core_run_issue {i : Instr} {s t : State} {rest : List HostMove} (n : Nat)
    (pending : s.input = .issue (encode i) :: rest) (e : exec i { s with input := rest } = .next t) :
    core.run (n + 1) s = core.run n t :=
  core_run_succ n ((step_of_issue_encode pending).trans e)

/-- The host's four operations build the wire frame of the opcode and its operands, whatever the opcode is. -/
theorem core_run_customCommand (start opcode : Byte) {operands : Bytes} (fits : operands.length ≤ 250) (s : State) :
    core.run 4 { s with input := issueAll (customCommandOperations start opcode operands) ++ s.input } =
      .next (answer (.bytes (wireFrame start (opcode :: operands)))
        { s with txf := some ⟨wireFrame start (opcode :: operands), true⟩ }) := by
  rw [core_run_issue (i := .new start) 3 rfl (exec_new ..),
    core_run_issue (i := .write opcode) 2 rfl (exec_write_open opcode rfl (by simp)),
    core_run_issue (i := .writeAll operands) 1 rfl (exec_writeAll_open rfl (by simp; omega)),
    core_run_issue (i := .finalize) 0 rfl (exec_finalize_open (p := opcode :: operands) rfl (by simp; omega)),
    core_run_zero]
  rfl

theorem wireFrame_custom (start opcode : Byte) {operands : Bytes} (fits : operands.length ≤ 250) :
    let covered : Bytes := [0x00#8, BitVec.ofNat 8 (3 + operands.length), opcode] ++ operands
    wireFrame start (opcode :: operands) = [start] ++ covered ++ [hi8 (crc16 covered), lo8 (crc16 covered)] := by
  refine wireFrame_of_covered start (by simp; omega) ?_
  rw [List.length_cons, show 2 + (operands.length + 1) = 3 + operands.length by omega]
  rfl

/-- Settles O48: DEC_RAW tests nothing; the four operations build the frame; a frame that PARSE leaves is finalized. -/
theorem customCommandPath : Obligations.CustomCommandPath := by
  refine ⟨fun r s => ⟨fun _ => rfl, exec_decRaw r s⟩, fun start opcode operands s fits => ?_,
    fun record s t f e held long => ⟨?_, exec_decRaw _ t⟩⟩
  · simp only [← wireFrame_custom start opcode fits]
    refine ⟨core_run_customCommand start opcode fits s, ?_⟩
    rw [exec_payload_some (sel := .txf) rfl, payloadOf_wireFrame, if_neg (List.cons_ne_nil _ _)]
    rfl
  · obtain ⟨buf, final⟩ := f
    obtain ⟨rfl, -⟩ := parseRecord_of_rxf e held
    rw [exec_payload_some (sel := .rxf) held, payloadOf_final, if_neg (Nat.not_le.mpr long)]
    rfl

end Sys2Proof.Machine

/-! PROOFS. All operations (60_exceptions.md): what an error leaves, which kinds each operation raises, and what depends on the operand alone. -/

namespace Sys2Proof.Machine

/-! ## What an error leaves (R127) -/

theorem settleValue_of_error {r : Except ErrKind Value} {s : State} {k : ErrKind}
    (h : (settleValue r s).res = some (.err k)) : settleValue r s = raise k s := by
  cases r with
  | ok v => exact nomatch h
  | error k' => cases h; rfl

theorem settleFrame_of_error {r : Except ErrKind Frame} {v : Frame → Value} {s : State} {k : ErrKind}
    (h : (settleFrame r v s).res = some (.err k)) : settleFrame r v s = raise k s := by
  cases r with
  | ok f => exact nomatch h
  | error k' => cases h; rfl

theorem settleParse_of_error {r : Except ErrKind Bytes} {s : State} {k : ErrKind}
    (h : (settleParse r s).res = some (.err k)) : settleParse r s = raise k { s with rxf := none } := by
  cases r with
  | ok b => exact nomatch h
  | error k' => cases h; rfl

/-- Settles O50: PARSE apart, an operation settles a value or a frame, and an error settles neither. -/
theorem anErrorLeavesTheSlots : Obligations.AnErrorLeavesTheSlots := by
  intro i s t k e failed
  obtain ⟨record, rfl⟩ | other := Classical.em (∃ record, i = .parse record)
  · rw [exec_parse] at e; cases e
    exact .inr ⟨⟨record, rfl⟩, settleParse_of_error failed⟩
  · refine .inl ⟨fun record h => other ⟨record, h⟩, ?_⟩
    cases exec_shape i s with
    | stops _ _ e' => rw [e'] at e; exact nomatch e
    | value r e' => rw [e'] at e; cases e; exact settleValue_of_error failed
    | frame r v _ e' => rw [e'] at e; cases e; exact settleFrame_of_error failed
    | parse record h _ => exact absurd ⟨record, h⟩ other

/-! ## What depends on the operand alone (R65, R116) -/

/-- PAYLOAD apart, an operation of the class that changes no state settles one value from every state. -/
theorem exists_value_of_changesNoState {i : Instr} (h : changesNoState i = true) (no : ∀ sel, i ≠ .payload sel) :
    ∃ r, ∀ s, exec i s = .next (settleValue r s) := by
  cases i with
  | crc16 | strip | decInventory | decRead | decWrite | decRaw => exact ⟨_, fun _ => rfl⟩
  | reservedF low => exact ⟨.error .notImplemented, fun _ => rfl⟩
  | payload sel => exact absurd rfl (no sel)
  | new | write | writeAll | finalize | parse | encInventory | encRead | encWrite => exact nomatch h
  | cmdInventory | cmdRead | cmdWrite => exact nomatch h

/-- Settles O51: the one value settled is the one result answered. -/
theorem decodersReadNoState : Obligations.DecodersReadNoState := by
  intro i s t idle no
  obtain ⟨r, e⟩ := exists_value_of_changesNoState idle no
  rw [e s, e t]
  cases r with
  | ok v => exact ⟨.ok v, rfl, rfl⟩
  | error k => exact ⟨.err k, rfl, rfl⟩

/-! ## The kinds an operation raises (R121, R123) -/

theorem eq_error_of_map {α β : Type} {r : Except ErrKind α} {g : α → β} {k : ErrKind} (h : r.map g = .error k) :
    r = .error k := by
  cases r with
  | ok a => exact nomatch h
  | error k' => cases h; rfl

theorem writeByte_error_mem {slot : Option Frame} {b : Byte} {k : ErrKind} (h : writeByte slot b = .error k) :
    k ∈ [ErrKind.noFrame, .writeAfterFinal, .overflow] := by
  obtain ⟨rfl, -⟩ | ⟨rfl, -⟩ | ⟨rfl, -⟩ := (writeByte_eq_error_iff slot b k).mp h
  all_goals decide

theorem writeBytes_error_mem {slot : Option Frame} {b : Bytes} {k : ErrKind} (h : writeBytes slot b = .error k) :
    k ∈ [ErrKind.noFrame, .writeAfterFinal, .overflow] := by
  obtain ⟨rfl, -⟩ | ⟨rfl, -⟩ | ⟨rfl, -⟩ := (writeBytes_eq_error_iff slot b k).mp h
  all_goals decide

theorem parseRecord_error_mem {record : Record} {k : ErrKind} (h : parseRecord record = .error k) :
    k ∈ [ErrKind.shortRecord, .wrongChecksum] := by
  obtain ⟨rfl, -⟩ | ⟨rfl, -⟩ := (parseRecord_eq_error_iff record k).mp h
  all_goals decide

theorem encodeRead_error_mem {id : Bytes} {k : ErrKind} (h : encodeRead id = .error k) : k ∈ [ErrKind.wrongCardId] := by
  obtain ⟨-, e⟩ | ⟨-, e⟩ := encodeRead_cases id
  all_goals rw [e] at h; cases h
  decide

theorem encodeWrite_error_mem {id data : Bytes} {k : ErrKind} (h : encodeWrite id data = .error k) :
    k ∈ [ErrKind.wrongCardId, .overflow] := by
  obtain ⟨-, e⟩ | ⟨-, -, e⟩ | ⟨-, -, e⟩ := encodeWrite_cases id data
  all_goals rw [e] at h; cases h
  all_goals decide

theorem decodeInventory_error_mem {r : Bytes} {k : ErrKind} (h : decodeInventory r = .error k) :
    k ∈ [ErrKind.wrongResponse, .noCard] := by
  obtain ⟨-, e⟩ | ⟨-, -, e⟩ | ⟨-, -, -, e⟩ | ⟨-, -, -, e⟩ := decodeInventory_cases r
  all_goals rw [e] at h; cases h
  all_goals decide

theorem decodeRead_error_mem {r : Bytes} {k : ErrKind} (h : decodeRead r = .error k) :
    k ∈ [ErrKind.wrongResponse, .noCard] := by
  obtain ⟨-, e⟩ | ⟨-, -, e⟩ | ⟨-, -, e⟩ := decodeRead_cases r
  all_goals rw [e] at h; cases h
  all_goals decide

theorem decodeWrite_error_mem {r : Bytes} {k : ErrKind} (h : decodeWrite r = .error k) :
    k ∈ [ErrKind.wrongResponse, .noCard] := by
  obtain ⟨-, e⟩ | ⟨-, -, e⟩ | ⟨-, -, e⟩ := decodeWrite_cases r
  all_goals rw [e] at h; cases h
  all_goals decide

/-- Settles O52: what an operation raises is the error of what it settles, and each such function names its kinds. -/
theorem operationsRaiseTheirKindsOnly : Obligations.OperationsRaiseTheirKindsOnly := by
  intro i s k raised
  cases i with
  | crc16 b => exact nomatch (raises_iff_of_settleValue (r := .ok _) rfl k).mp raised
  | strip b => exact nomatch (raises_iff_of_settleValue (r := .ok _) rfl k).mp raised
  | decRaw r => exact nomatch (raises_iff_of_settleValue (r := .ok _) rfl k).mp raised
  | new start => exact nomatch (raises_iff_of_settleFrame (r := .ok _) rfl k).mp raised
  | cmdInventory => exact nomatch (raises_iff_of_settleFrame (r := .ok _) rfl k).mp raised
  | encInventory =>
    rw [Raises, exec_encInventory_eq_cmd] at raised
    exact nomatch (raises_iff_of_settleFrame (i := .cmdInventory) (r := .ok _) rfl k).mp raised
  | write b => exact writeByte_error_mem ((raises_write_iff b s k).mp raised)
  | writeAll b => exact writeBytes_error_mem ((raises_writeAll_iff b s k).mp raised)
  | finalize =>
    by_cases within : withinBounds s.txf = true
    · exact List.mem_singleton.mpr ((raises_finalize_iff within k).mp raised).1
    · rw [Raises, exec_finalize_stops within] at raised
      obtain ⟨t, stopped, -⟩ := raised
      exact nomatch stopped
  | payload sel => exact List.mem_singleton.mpr ((raises_payload_iff sel s k).mp raised).1
  | parse record => exact parseRecord_error_mem ((raises_iff_of_settleParse (exec_parse record s) k).mp raised)
  | encRead id => exact encodeRead_error_mem ((raises_iff_of_settleFrame (exec_encRead id s) k).mp raised)
  | encWrite id data =>
    exact encodeWrite_error_mem ((raises_iff_of_settleFrame (exec_encWrite id data s) k).mp raised)
  | cmdRead id =>
    rw [Raises, ← exec_encRead_eq_cmd] at raised
    exact encodeRead_error_mem ((raises_iff_of_settleFrame (exec_encRead id s) k).mp raised)
  | cmdWrite id data =>
    rw [Raises, ← exec_encWrite_eq_cmd] at raised
    exact encodeWrite_error_mem ((raises_iff_of_settleFrame (exec_encWrite id data s) k).mp raised)
  | decInventory r =>
    exact decodeInventory_error_mem (eq_error_of_map ((raises_iff_of_settleValue (exec_decInventory r s) k).mp raised))
  | decRead r =>
    exact decodeRead_error_mem (eq_error_of_map ((raises_iff_of_settleValue (exec_decRead r s) k).mp raised))
  | decWrite r =>
    exact decodeWrite_error_mem (eq_error_of_map ((raises_iff_of_settleValue (exec_decWrite r s) k).mp raised))
  | reservedF low =>
    have failed := (raises_iff_of_settleValue (i := .reservedF low) (s := s) (r := .error .notImplemented) rfl k).mp raised
    exact List.mem_singleton.mpr (Except.error.inj failed).symm

/-- No row of R123 lists the two kinds that only the host's procedure reports. -/
theorem raisable_of_block {i : Instr} {k : ErrKind} (h : k ∈ raisable i) : k ≠ .transportError ∧ k ≠ .emptyResponse := by
  have rows : ErrKind.transportError ∉ raisable i ∧ ErrKind.emptyResponse ∉ raisable i := by
    cases i <;> simp [raisable]
  exact ⟨fun e => rows.1 (e ▸ h), fun e => rows.2 (e ▸ h)⟩

/-- The codes of the other kinds. -/
theorem code_of_block {k : ErrKind} (transport : k ≠ .transportError) (empty : k ≠ .emptyResponse) :
    k.code ≠ 1#4 ∧ k.code ≠ 4#4 ∧ k.code < 12#4 := by
  cases k with
  | transportError => exact absurd rfl transport
  | emptyResponse => exact absurd rfl empty
  | _ => decide

/-- Settles O53: an `Ok` has code 0, and an error is of a kind in the operation's row. -/
theorem statusCodes : Obligations.StatusCodes := by
  refine ⟨rfl, fun i s t r e driven => ?_⟩
  cases r with
  | ok v =>
    rw [show (Res.ok v).status = 0#4 from rfl]
    decide
  | err k =>
    obtain ⟨transport, empty⟩ := raisable_of_block (operationsRaiseTheirKindsOnly i s k ⟨t, e, driven⟩)
    exact code_of_block transport empty

end Sys2Proof.Machine

/-! PROOFS. The host's contract (60_exceptions.md R130 to R136): the sequence of `perform`, and the identifier test before any transmission. -/

namespace Sys2Proof.Machine

/-! ## The reply (R131, R133) -/

theorem parseReply_error {record : Record} {k : ErrKind} (h : parseRecord record = .error k) (host : Session) :
    parseReply record host = ({ host with block := raise k { host.block with rxf := none } }, .error (.kind k)) := by
  simp only [parseReply, h, settleParse_error]

theorem parseReply_ok {record : Record} {logical : Bytes} (h : parseRecord record = .ok logical) (host : Session) :
    (parseReply record host).1.block.rxf = some ⟨logical, true⟩ ∧
      (parseReply record host).2 =
        if logical.length ≤ 5 then .error (.kind .wrongResponse) else .ok (slice logical 3 (logical.length - 2)) := by
  simp only [parseReply, h, settleParse_ok, answer_rxf, Option.bind_some, payloadOf_final]
  by_cases short : logical.length ≤ 5
  · simp [short]
  · simp [short]

/-- Nothing is transmitted after the command. -/
theorem parseReply_sent (record : Record) (host : Session) : (parseReply record host).1.sent = host.sent := by
  simp only [parseReply]
  split
  · rfl
  · split <;> rfl

theorem perform_transmit_failed {x : Exchange} {e : TransportFailure} (failed : x.transmitFailure = some e)
    (command : Bytes) (host : Session) :
    perform x command host = ({ host with sent := host.sent ++ [command] }, .error (.transport e)) := by
  simp only [perform, failed]

theorem perform_receive_failed {x : Exchange} {e : TransportFailure} (sent : x.transmitFailure = none)
    (failed : x.reception = .failed e) (command : Bytes) (host : Session) :
    perform x command host = ({ host with sent := host.sent ++ [command] }, .error (.transport e)) := by
  simp only [perform, sent, failed]

theorem perform_empty {x : Exchange} {record : Record} (sent : x.transmitFailure = none)
    (got : x.reception = .got 0 record) (command : Bytes) (host : Session) :
    perform x command host = ({ host with sent := host.sent ++ [command] }, .error (.kind .emptyResponse)) := by
  simp only [perform, sent, got, if_true]

theorem perform_got {x : Exchange} {count : Nat} {record : Record} (sent : x.transmitFailure = none)
    (got : x.reception = .got count record) (queued : count ≠ 0) (command : Bytes) (host : Session) :
    perform x command host = parseReply record { host with sent := host.sent ++ [command] } := by
  simp only [perform, sent, got, queued, if_false]

/-- The command is handed to `transmit` once, whatever the exchange answers. -/
theorem perform_sent (x : Exchange) (command : Bytes) (host : Session) :
    (perform x command host).1.sent = host.sent ++ [command] := by
  cases transmitted : x.transmitFailure with
  | some e => rw [perform_transmit_failed transmitted]
  | none =>
    cases received : x.reception with
    | failed e => rw [perform_receive_failed transmitted received]
    | got count record =>
      by_cases empty : count = 0
      · subst empty
        rw [perform_empty transmitted received]
      · rw [perform_got transmitted received empty, parseReply_sent]

/-- Settles O59: the three early ends, and the reply's by PARSE's outcome. -/
theorem performSequence : Obligations.PerformSequence := by
  intro x command host
  refine ⟨perform_sent x command host, fun e failed => perform_transmit_failed failed command host, fun sent =>
    ⟨fun e failed => perform_receive_failed sent failed command host, fun record got => perform_empty sent got command host,
      fun count record k got queued raised => ?_, fun count record t f got queued e held => ?_⟩⟩
  · have failed := (raises_iff_of_settleParse (exec_parse record host.block) k).mp raised
    rw [perform_got sent got queued, parseReply_error failed]
    exact ⟨rfl, rfl⟩
  · obtain ⟨buf, final⟩ := f
    obtain ⟨rfl, passed⟩ := parseRecord_of_rxf e held
    obtain ⟨stored, returned⟩ := parseReply_ok passed { host with sent := host.sent ++ [command] }
    rw [perform_got sent got queued, stored, returned]
    exact ⟨rfl, fun short => if_pos short, fun long => if_neg (Nat.not_le.mpr long)⟩

/-- Settles O60: the encoder's error ends the operation, before `perform`. -/
theorem wrongCardIdBeforeAnyTransmit : Obligations.WrongCardIdBeforeAnyTransmit := by
  intro id data x host wrong
  constructor
  · simp only [readCard, deviceOperation, encodeRead_error wrong, settleFrame_error]
    rfl
  · simp only [writeCard, deviceOperation, encodeWrite_error_id data wrong, settleFrame_error]
    rfl

end Sys2Proof.Machine
